-- ==== Sys2Proof/Word.lean ====
section
/-! DEFINITION. The plain value types of the machine: binary words and fields, data values, addresses. -/

namespace Sys2Proof

/-- A binary instruction word, bits 15 to 0 (30_encoding.md R83, 00_scope.md R9). -/
abbrev Word := BitVec 16

/-- One 4-bit field of a binary instruction word (30_encoding.md R83). -/
abbrev Nibble := BitVec 4

/-- A data value: a signed integer with no width (00_scope.md R8, 10_state.md R21). -/
abbrev Value := Int

/-- An address of Memory or of the program store: a natural number with no width
(20_memory.md R60, 10_state.md R25). -/
abbrev Addr := Nat

/-- A source line, text or binary: its characters from left to right. -/
abbrev Line := List Char

end Sys2Proof
end

