-- ==== Sys2Proof/Config.lean ====
section
/-! DEFINITION. What an implementation fixes: the three sizes given at construction and the shape of
the binary opcode table (00_scope.md R5); the default table and the default sentinel stand with the decoders in
Decode.lean. The spec leaves no value of the machine undefined, so there is no
free value here. -/

namespace Sys2Proof

/-- The three sizes an instance is constructed with (00_scope.md R5). -/
structure Config where
  /-- `NREG`: the number of data registers. -/
  nreg : Nat
  /-- `NSTAT`: the number of status registers. -/
  nstat : Nat
  /-- `CACHE_CAP`: the cache capacity in entries; 0 is allowed. -/
  cacheCap : Nat
deriving DecidableEq, Repr

/-- The reference configuration of 92_eei_decisions.md D2. -/
def Config.reference : Config := ⟨16, 16, 4⟩

/-- The eleven decode labels of the binary opcode table (30_encoding.md R82, R85). `jmpc` and `jmpu` both normalise to
the mnemonic JMP. -/
inductive Label where
  | nop | halt | cmp | cne | jmpc | jmpu | load | store | add | sub | mult
deriving DecidableEq, Repr

/-- The labels in the order of the table of 30_encoding.md R85. -/
def Label.all : List Label :=
  [.nop, .halt, .cmp, .cne, .jmpc, .jmpu, .load, .store, .add, .sub, .mult]

/-- `OPMAP`: the binary opcode of each label, an argument of the binary decoder (30_encoding.md R85). The table must be
injective (`OpMap.WellFormed`); the default is `OpMap.default`. -/
abbrev OpMap := Label → Nibble

end Sys2Proof
end

