-- ==== Sys2Proof/Syntax.lean ====
section
/-! DEFINITION. The canonical instruction form: mnemonics, source operands, instructions (30_encoding.md R80, R81). -/

namespace Sys2Proof

/-- The ten opcode names (00_scope.md R1, 30_encoding.md R80). -/
inductive Mnemonic where
  | NOP | HALT | CMP | CNE | JMP | LOAD | STORE | ADD | SUB | MULT
deriving DecidableEq, Repr

/-- The mnemonics in the order the spec lists them (30_encoding.md R80). -/
def Mnemonic.all : List Mnemonic :=
  [.NOP, .HALT, .CMP, .CNE, .JMP, .LOAD, .STORE, .ADD, .SUB, .MULT]

/-- A source operand: a literal integer or a reference to a data register (30_encoding.md R80). -/
inductive Src where
  | lit (n : Value)
  | reg (i : Nat)
deriving DecidableEq, Repr

/-- A canonical instruction, one constructor per row of the opcode table (30_encoding.md R80, R81, R85). The canonical
`JMP(target, cond)` is `jmpu target` for `cond = none` and `jmpc target j` for `cond = some(j)` (`Instr.jmp`; log 18).
The operand order is that of the source line and of the fields of the binary word. -/
inductive Instr where
  /-- NOP -/
  | nop
  /-- HALT -/
  | halt
  /-- CMP `a b d`: `d` is a status-register index. -/
  | cmp (a b : Src) (d : Nat)
  /-- CNE `a b d`: `d` is a status-register index. -/
  | cne (a b : Src) (d : Nat)
  /-- JMP `target j`, conditional: `target` is an instruction address, `j` a status-register index. -/
  | jmpc (target : Addr) (j : Nat)
  /-- JMP `target`, unconditional: `target` is an instruction address. -/
  | jmpu (target : Addr)
  /-- LOAD `addr d`: `addr` is a memory address, `d` a data-register index. -/
  | load (addr : Addr) (d : Nat)
  /-- STORE `r addr`: `r` is a data-register index, `addr` a memory address. -/
  | store (r : Nat) (addr : Addr)
  /-- ADD `a b d`: `d` is a data-register index. -/
  | add (a b : Src) (d : Nat)
  /-- SUB `a b d`: `d` is a data-register index. -/
  | sub (a b : Src) (d : Nat)
  /-- MULT `a b d`: `d` is a data-register index. -/
  | mult (a b : Src) (d : Nat)
deriving DecidableEq, Repr

/-- An entry of the program store (10_state.md R35): a canonical instruction, or a raw 16-bit Data word, which the
engine skips. -/
inductive Entry where
  | instr (i : Instr)
  | data (w : Word)
deriving DecidableEq, Repr

end Sys2Proof
end

