-- ==== Sys2Proof/WellFormed.lean ====
section
/-! DEFINITION. The checks on parameters and instructions, each a Bool or a decidable proposition.
Every canonical instruction is well formed by its type: arities, operand kinds and the absence of negative indices and
addresses are in the constructors of `Instr` (30_encoding.md R80, R92). What is left to check is which instructions the
16-bit form can express, which register indices a configuration has, and the constraints on the
parameters (the one on the sentinel, `litMarkOk`, stands with the character classes in Decode.lean). -/

namespace Sys2Proof

/-- The constraints on the sizes (00_scope.md R5): `NREG >= 1`, `NSTAT >= 1`, `CACHE_CAP >= 0`. -/
def Config.wellFormed (c : Config) : Bool := decide (1 ≤ c.nreg) && decide (1 ≤ c.nstat)

/-- An opcode table is any injective map of the labels into 4-bit values (30_encoding.md R85). -/
abbrev OpMap.WellFormed (m : OpMap) : Prop :=
  (Label.all.map m).Nodup

/-- A source operand the 16-bit form can carry: a register reference that fits a 4-bit field. The binary form has no
literals (30_encoding.md R88). -/
def Src.encodable : Src → Bool
  | .lit _ => false
  | .reg i => decide (i < 16)

/-- The instructions `Encode16` is defined for (30_encoding.md R90): every operand a bare number 0 to 15, no literal. -/
def Instr.encodable : Instr → Bool
  | .nop | .halt => true
  | .cmp a b d | .cne a b d | .add a b d | .sub a b d | .mult a b d =>
      a.encodable && b.encodable && decide (d < 16)
  | .jmpc t j => decide (t < 16) && decide (j < 16)
  | .jmpu t => decide (t < 16)
  | .load addr d => decide (addr < 16) && decide (d < 16)
  | .store r addr => decide (r < 16) && decide (addr < 16)

/-- A source operand that names no data register outside a file of `nreg` registers (10_state.md R38). -/
def Src.inRange (nreg : Nat) : Src → Bool
  | .lit _ => true
  | .reg i => decide (i < nreg)

/-- Every register index of the instruction is inside its file, so that it can raise no `OperationError`
(60_exceptions.md R203). The loader does not check this (30_encoding.md R96). -/
def Instr.inRange (nreg nstat : Nat) : Instr → Bool
  | .nop | .halt | .jmpu _ => true
  | .cmp a b d | .cne a b d => a.inRange nreg && b.inRange nreg && decide (d < nstat)
  | .add a b d | .sub a b d | .mult a b d => a.inRange nreg && b.inRange nreg && decide (d < nreg)
  | .jmpc _ j => decide (j < nstat)
  | .load _ d => decide (d < nreg)
  | .store r _ => decide (r < nreg)

end Sys2Proof
end

