-- ==== Sys2Proof/Decode.lean ====
section
/-! DEFINITION. The two decoders, both total and both producing canonical instructions: the 16-bit binary form
(30_encoding.md R83 to R89) and the text form with its validator (R91 to R97). After them the encoders: the word and the
binary line of an instruction (R90) and its text line. -/

namespace Sys2Proof

/-! ### The tables -/

/-- The number of operands kept for a label (30_encoding.md R82). -/
def Label.arity : Label → Nat
  | .nop | .halt => 0
  | .jmpu => 1
  | .jmpc | .load | .store => 2
  | .cmp | .cne | .add | .sub | .mult => 3

/-- The default table of 30_encoding.md R85.
DESIGN CHOICE of the spec (92_eei_decisions.md D3; log 4). -/
def OpMap.default : OpMap
  | .nop => 0x0#4
  | .halt => 0x1#4
  | .cmp => 0x2#4
  | .cne => 0x3#4
  | .jmpc => 0x4#4
  | .jmpu => 0x5#4
  | .load => 0x6#4
  | .store => 0x7#4
  | .add => 0x8#4
  | .sub => 0x9#4
  | .mult => 0xA#4

/-- `LIT_MARK`: the default sentinel of a literal in the text form (30_encoding.md R93).
DESIGN CHOICE of the spec (92_eei_decisions.md D5; log 6). -/
def litMark : Char := '#'

/-- The canonical `JMP(target, cond)` of 30_encoding.md R80. -/
def Instr.jmp (target : Addr) : Option Nat → Instr
  | none => .jmpu target
  | some j => .jmpc target j

/-- The decode label of an instruction (30_encoding.md R85). -/
def Instr.label : Instr → Label
  | .nop => .nop
  | .halt => .halt
  | .cmp _ _ _ => .cmp
  | .cne _ _ _ => .cne
  | .jmpc _ _ => .jmpc
  | .jmpu _ => .jmpu
  | .load _ _ => .load
  | .store _ _ => .store
  | .add _ _ _ => .add
  | .sub _ _ _ => .sub
  | .mult _ _ _ => .mult

/-- The mnemonic a label normalises to (30_encoding.md R85): both JMP labels give JMP. -/
def Label.mnemonic : Label → Mnemonic
  | .nop => .NOP
  | .halt => .HALT
  | .cmp => .CMP
  | .cne => .CNE
  | .jmpc => .JMP
  | .jmpu => .JMP
  | .load => .LOAD
  | .store => .STORE
  | .add => .ADD
  | .sub => .SUB
  | .mult => .MULT

/-- The opcode name of a canonical instruction, one of the ten (30_encoding.md R80, 40_execution_cycle.md R134). -/
def Instr.mnemonic (i : Instr) : Mnemonic := i.label.mnemonic

/-! ### Errors -/

/-- Why a line fails to decode (60_exceptions.md R201). -/
inductive ValidationReason where
  /-- Binary: the line is not exactly 16 characters. -/
  | lineLength
  /-- Binary: the field at this position (1 to 4, from the left) holds a character other than `0` or `1`. -/
  | fieldNotBinary (position : Nat)
  /-- Binary: the opcode field is not in the opcode table. -/
  | unrecognizedBinaryOpcode
  /-- Text: there is no first token, or it is not one of the ten mnemonics. -/
  | unrecognizedOpcode
  /-- Text: the number of operands is not the opcode's arity. -/
  | wrongArity
  /-- Text: the operand at this position (1 to 3) is not an integer or literal as required. -/
  | badOperand (position : Nat)
deriving DecidableEq, Repr

/-- The load-time error of program decoding (60_exceptions.md R200, R201): the 1-based line number and the reason. -/
structure ValidationError where
  lineno : Nat
  reason : ValidationReason
deriving DecidableEq, Repr

/-! ### The binary decoder -/

/-- The canonical instruction of a label and the three operand fields `op1`, `op2`, `dest`: the table of
30_encoding.md R88. It keeps the first `arity` fields and ignores the others (R87), and in format T the sources are
always register references. -/
def instrOfFields (l : Label) (op1 op2 dest : Nat) : Instr :=
  match l with
  | .nop => .nop
  | .halt => .halt
  | .cmp => .cmp (.reg op1) (.reg op2) dest
  | .cne => .cne (.reg op1) (.reg op2) dest
  | .jmpc => .jmp op1 (some op2)
  | .jmpu => .jmp op1 none
  | .load => .load op1 op2
  | .store => .store op1 op2
  | .add => .add (.reg op1) (.reg op2) dest
  | .sub => .sub (.reg op1) (.reg op2) dest
  | .mult => .mult (.reg op1) (.reg op2) dest

/-- The label an opcode field maps to, if the table has it (30_encoding.md R85, R86). -/
def OpMap.labelOf (m : OpMap) (op : Nibble) : Option Label :=
  Label.all.find? fun l => m l == op

/-- The 4-bit field of a word whose least significant bit is bit `lo` (30_encoding.md R83). -/
def wordField (w : Word) (lo : Nat) : Nibble := w.extractLsb' lo 4

/-- `Decode16`, total on every 16-bit word: `none` is the spec's `invalid` (30_encoding.md R86, R88, R89). -/
def decode16 (m : OpMap) (w : Word) : Option Instr :=
  (m.labelOf (wordField w 12)).map fun l =>
    instrOfFields l (wordField w 8).toNat (wordField w 4).toNat (wordField w 0).toNat

/-- A character of a binary field (30_encoding.md R84). -/
def isBit (c : Char) : Bool := c == '0' || c == '1'

/-- The four fields of a 16-character line, from the left (30_encoding.md R83). -/
def lineFields (line : Line) : List Line :=
  [line.take 4, (line.drop 4).take 4, (line.drop 8).take 4, (line.drop 12).take 4]

/-- The position, counted from `p`, of the first field that is not binary (30_encoding.md R89 step 2). -/
def firstBadField (p : Nat) : List Line → Option Nat
  | [] => none
  | f :: fs => if f.all isBit then firstBadField (p + 1) fs else some p

/-- The unsigned number a binary string spells, the leftmost character most significant, after the bits read so far
(30_encoding.md R84). -/
def bitsValue (acc : Nat) : Line → Nat
  | [] => acc
  | c :: cs => bitsValue (2 * acc + if c == '1' then 1 else 0) cs

/-- The word of a binary line: the leftmost character is bit 15 (30_encoding.md R84). -/
def wordOfLine (line : Line) : Word := BitVec.ofNat 16 (bitsValue 0 line)

/-- The binary decoder, on one source line: length, then fields from left to right, then the opcode
(30_encoding.md R89). -/
def decodeBinaryLine (m : OpMap) (line : Line) (lineno : Nat) : Except ValidationError Instr :=
  if line.length ≠ 16 then .error ⟨lineno, .lineLength⟩
  else
    match firstBadField 1 (lineFields line) with
    | some p => .error ⟨lineno, .fieldNotBinary p⟩
    | none =>
      match decode16 m (wordOfLine line) with
      | none => .error ⟨lineno, .unrecognizedBinaryOpcode⟩
      | some i => .ok i

/-! ### The text decoder and validator -/

/-- The whitespace of the text form: space and tab (30_encoding.md R91). -/
def isBlank (c : Char) : Bool := c == ' ' || c == '\t'

/-- The decimal digits of the text form (30_encoding.md R92). -/
def isDigit (c : Char) : Bool := decide (48 ≤ c.toNat) && decide (c.toNat ≤ 57)

/-- A sentinel may be any single character that is not a digit, `-` or whitespace (92_eei_decisions.md D5). -/
def litMarkOk (c : Char) : Bool := !isDigit c && !isBlank c && c != '-'

/-- The token read so far, if there is one. -/
def flushToken (token : Line) : List Line := if token.isEmpty then [] else [token]

/-- Split a line at runs of blanks, after the characters of the token read so far (30_encoding.md R91). -/
def splitTokens (token : Line) : Line → List Line
  | [] => flushToken token
  | c :: cs => if isBlank c then flushToken token ++ splitTokens [] cs else splitTokens (token ++ [c]) cs

/-- The tokens of a line: leading and trailing blanks are ignored (30_encoding.md R91). -/
def tokensOf (line : Line) : List Line := splitTokens [] line

/-- The number a string of decimal digits spells, after the digits read so far. -/
def digitsValue (acc : Nat) : Line → Option Nat
  | [] => some acc
  | c :: cs => if isDigit c then digitsValue (10 * acc + (c.toNat - 48)) cs else none

/-- A bare integer: one or more decimal digits, no sign (30_encoding.md R92). -/
def bareInteger (token : Line) : Option Nat := if token.isEmpty then none else digitsValue 0 token

/-- A signed integer: an optional `-` and then one or more decimal digits (30_encoding.md R93; the value of an
initial-data entry, 70_reset_and_hazards.md R232). -/
def signedInteger : Line → Option Int
  | [] => none
  | c :: cs => if c == '-' then (bareInteger cs).map fun n => -(n : Int) else (bareInteger (c :: cs)).map fun n => (n : Int)

/-- A source-operand token: a literal is the sentinel and a signed integer, anything else must be a bare integer, which
names a data register (30_encoding.md R93, R94). -/
def sourceToken (mark : Char) : Line → Option Src
  | [] => none
  | c :: cs => if c == mark then (signedInteger cs).map Src.lit else (bareInteger (c :: cs)).map Src.reg

/-- The operand at a position, or the error that names the position (30_encoding.md R95 step 3). -/
def orBadOperand {α : Type} (position : Nat) : Option α → Except ValidationReason α
  | none => .error (.badOperand position)
  | some v => .ok v

/-- Three operands: two sources and a bare destination index (30_encoding.md R94). -/
def threeOperands (mark : Char) (f : Src → Src → Nat → Instr) (a b d : Line) : Except ValidationReason Instr := do
  let va ← orBadOperand 1 (sourceToken mark a)
  let vb ← orBadOperand 2 (sourceToken mark b)
  let vd ← orBadOperand 3 (bareInteger d)
  return f va vb vd

/-- Two bare-integer operands (30_encoding.md R94). -/
def twoOperands (f : Nat → Nat → Instr) (a b : Line) : Except ValidationReason Instr := do
  let va ← orBadOperand 1 (bareInteger a)
  let vb ← orBadOperand 2 (bareInteger b)
  return f va vb

/-- One bare-integer operand (30_encoding.md R94). -/
def oneOperand (f : Nat → Instr) (a : Line) : Except ValidationReason Instr := do
  let va ← orBadOperand 1 (bareInteger a)
  return f va

/-- The grammar per opcode: the arity first, then the operands from left to right (30_encoding.md R94, R95). In text
the number of operands selects the form of JMP (R82). -/
def parseOperands (mark : Char) (op : Mnemonic) (operands : List Line) : Except ValidationReason Instr :=
  match op, operands with
  | .NOP, [] => .ok .nop
  | .HALT, [] => .ok .halt
  | .CMP, [a, b, d] => threeOperands mark .cmp a b d
  | .CNE, [a, b, d] => threeOperands mark .cne a b d
  | .ADD, [a, b, d] => threeOperands mark .add a b d
  | .SUB, [a, b, d] => threeOperands mark .sub a b d
  | .MULT, [a, b, d] => threeOperands mark .mult a b d
  | .LOAD, [addr, d] => twoOperands .load addr d
  | .STORE, [r, addr] => twoOperands .store r addr
  | .JMP, [target] => oneOperand (fun t => .jmp t none) target
  | .JMP, [target, j] => twoOperands (fun t k => .jmp t (some k)) target j
  | _, _ => .error .wrongArity

/-- The spelling of a mnemonic, upper case only (30_encoding.md R91). -/
def Mnemonic.name : Mnemonic → Line
  | .NOP => ['N', 'O', 'P']
  | .HALT => ['H', 'A', 'L', 'T']
  | .CMP => ['C', 'M', 'P']
  | .CNE => ['C', 'N', 'E']
  | .JMP => ['J', 'M', 'P']
  | .LOAD => ['L', 'O', 'A', 'D']
  | .STORE => ['S', 'T', 'O', 'R', 'E']
  | .ADD => ['A', 'D', 'D']
  | .SUB => ['S', 'U', 'B']
  | .MULT => ['M', 'U', 'L', 'T']

/-- The mnemonic a token spells, if it is one of the ten. -/
def mnemonicOf (token : Line) : Option Mnemonic := Mnemonic.all.find? fun m => m.name == token

/-- A line's tokens as a canonical instruction: opcode, then arity, then operands (30_encoding.md R95). -/
def parseTokens (mark : Char) : List Line → Except ValidationReason Instr
  | [] => .error .unrecognizedOpcode
  | token :: operands =>
    match mnemonicOf token with
    | none => .error .unrecognizedOpcode
    | some op => parseOperands mark op operands

/-- The text decoder and validator, on one source line (30_encoding.md R95). -/
def decodeTextLine (mark : Char) (line : Line) (lineno : Nat) : Except ValidationError Instr :=
  match parseTokens mark (tokensOf line) with
  | .error reason => .error ⟨lineno, reason⟩
  | .ok i => .ok i

/-! ### A whole program -/

/-- The format of a program, chosen by the loader and never sniffed (30_encoding.md R98). -/
inductive Format where
  | text
  | binary
deriving DecidableEq, Repr

/-- The decoder of a format (30_encoding.md R98). -/
def decodeLine (m : OpMap) (mark : Char) : Format → Line → Nat → Except ValidationError Instr
  | .text => decodeTextLine mark
  | .binary => decodeBinaryLine m

/-- Decode lines from line number `n` on, in order: all of them, or the error of the first malformed one
(30_encoding.md R97). -/
def decodeLines (decode : Line → Nat → Except ValidationError Instr) (n : Nat) :
    List Line → Except ValidationError (List Instr)
  | [] => .ok []
  | line :: lines =>
    match decode line n with
    | .error e => .error e
    | .ok i =>
      match decodeLines decode (n + 1) lines with
      | .error e => .error e
      | .ok is => .ok (i :: is)

/-- Decode a program; line numbers are 1-based (30_encoding.md R97, 92_eei_decisions.md D19). -/
def decodeProgram (m : OpMap) (mark : Char) (f : Format) (lines : List Line) : Except ValidationError (List Instr) :=
  decodeLines (decodeLine m mark f) 1 lines

/-! ### The encoders -/

/-- The field of a source operand. The binary form has no literal, so a literal has no field of its own: an instruction
that holds one is not `encodable`, and nothing is said of its word (30_encoding.md R90). -/
def Src.field : Src → Nat
  | .lit _ => 0
  | .reg i => i

/-- The three operand fields of an instruction, every discarded field 0 (30_encoding.md R88, R90). -/
def Instr.fields : Instr → Nat × Nat × Nat
  | .nop | .halt => (0, 0, 0)
  | .cmp a b d | .cne a b d | .add a b d | .sub a b d | .mult a b d => (a.field, b.field, d)
  | .jmpc target j => (target, j, 0)
  | .jmpu target => (target, 0, 0)
  | .load addr d => (addr, d, 0)
  | .store r addr => (r, addr, 0)

/-- `Encode16` (30_encoding.md R90), with meaning for encodable instructions. -/
def encode (m : OpMap) (i : Instr) : Word :=
  m i.label ++ BitVec.ofNat 4 i.fields.1 ++ BitVec.ofNat 4 i.fields.2.1 ++ BitVec.ofNat 4 i.fields.2.2

/-- The lowest `n` bits of a word as characters, the leftmost most significant (30_encoding.md R84). -/
def bitsOf (w : Word) : Nat → Line
  | 0 => []
  | n + 1 => (if w.getLsbD n then '1' else '0') :: bitsOf w n

/-- The binary source line of a word (30_encoding.md R84). -/
def lineOfWord (w : Word) : Line := bitsOf w 16

/-- The digit character of a number below 10. -/
def digitChar (n : Nat) : Char := Char.ofNat (48 + n)

/-- The decimal digits of `n`, least significant first, at most `fuel` of them. -/
def digitsRev : Nat → Nat → Line
  | 0, _ => []
  | fuel + 1, n => if n < 10 then [digitChar n] else digitChar (n % 10) :: digitsRev fuel (n / 10)

/-- The decimal numeral of `n`, without leading zeros: a bare-integer token (30_encoding.md R92). -/
def decimal (n : Nat) : Line := (digitsRev (n + 1) n).reverse

/-- The signed decimal numeral of `v`: `-` if it is negative, and the numeral of its absolute value (30_encoding.md R93,
70_reset_and_hazards.md R232). -/
def signedDecimal : Int → Line
  | .ofNat n => decimal n
  | .negSucc n => '-' :: decimal (n + 1)

/-- The token of a source operand (30_encoding.md R93, R94). -/
def Src.token (mark : Char) : Src → Line
  | .reg i => decimal i
  | .lit v => mark :: signedDecimal v

/-- The operand tokens of an instruction, in order (30_encoding.md R94). -/
def Instr.operandTokens (mark : Char) : Instr → List Line
  | .nop | .halt => []
  | .cmp a b d | .cne a b d | .add a b d | .sub a b d | .mult a b d =>
      [a.token mark, b.token mark, decimal d]
  | .jmpc target j => [decimal target, decimal j]
  | .jmpu target => [decimal target]
  | .load addr d => [decimal addr, decimal d]
  | .store r addr => [decimal r, decimal addr]

/-- The text line of an instruction: its mnemonic and its operand tokens, one space before each operand
(30_encoding.md R91, R94). -/
def textLine (mark : Char) (i : Instr) : Line :=
  i.mnemonic.name ++ (i.operandTokens mark).flatMap fun token => ' ' :: token

/-! ### The row of the opcode table -/

/-- The instruction the binary decoder reads from an instruction whose bits are `w`, bit 0 the least significant bit of
its one 16-bit word: the word is written as its 16-character line and given to the decoder. A table row that gave an
instruction fewer bits than 16 leaves the bits above 0; no instruction has more than 16 bits (30_encoding.md R83;
log 21). -/
def decodeTableWord (nbits w : Nat) : Option Instr :=
  if nbits ≤ 16 then
    match decodeBinaryLine OpMap.default (lineOfWord (BitVec.ofNat 16 (w % 2 ^ nbits))) 1 with
    | .error _ => none
    | .ok i => some i
  else none

end Sys2Proof
end

