-- ==== Sys2Proof/Machine/FiniteMap.lean ====
section
/-! DEFINITION. Finite maps from natural numbers, in one canonical form: the list of their entries with strictly rising
keys. Memory and the program store are such maps (20_memory.md R60, 10_state.md R35). -/

namespace Sys2Proof.Machine

/-- A finite map from natural numbers: (key, value) pairs, keys strictly rising. -/
abbrev FiniteMap (α : Type) := List (Nat × α)

/-- The value bound to a key, if there is one. -/
def FiniteMap.find {α : Type} : FiniteMap α → Nat → Option α
  | [], _ => none
  | (k, v) :: m, a => if a = k then some v else FiniteMap.find m a

/-- Bind a key to a value: the entry is created if absent and replaced if present. -/
def FiniteMap.bind {α : Type} : FiniteMap α → Nat → α → FiniteMap α
  | [], a, v => [(a, v)]
  | (k, w) :: m, a, v =>
    if a < k then (a, v) :: (k, w) :: m
    else if a = k then (a, v) :: m
    else (k, w) :: FiniteMap.bind m a v

/-- The map that binds consecutive keys, from `n` on, to the values of a list. -/
def FiniteMap.ofList {α : Type} (n : Nat) : List α → FiniteMap α
  | [] => []
  | v :: vs => (n, v) :: FiniteMap.ofList (n + 1) vs

/-- The canonical form: keys strictly rising. No listed key looks up as an unlisted one does: a listed key has a value,
an unlisted one has none. -/
abbrev FiniteMap.wf {α : Type} (m : FiniteMap α) : Prop := (m.map Prod.fst).Pairwise (· < ·)

end Sys2Proof.Machine
end

