-- ==== Sys2Proof/Machine/State.lean ====
section
/-! DEFINITION. The state of one machine instance as plain data (10_state.md R20), the reasons a step stops, and reset
(10_state.md R39, 70_reset_and_hazards.md R230). -/

namespace Sys2Proof.Machine

/-- The two register files an out-of-range index can be aimed at (60_exceptions.md R203). -/
inductive RegFile where
  | data
  | status
deriving DecidableEq, Repr

/-- The information of an `OperationError`: which register file was indexed, and the offending index
(60_exceptions.md R200; 92_eei_decisions.md D19; log 15). -/
structure OperationError where
  file : RegFile
  index : Nat
deriving DecidableEq, Repr

/-- The cache over the data registers: (register index, value) pairs, least recently used first (10_state.md R29). -/
abbrev Cache := List (Nat × Value)

/-- The data Memory: the cells some STORE wrote (20_memory.md R60). An unlisted address is absent; it reads 0, and it
differs from a listed 0 in the snapshot (R62; log 14). -/
abbrev Memory := FiniteMap Value

/-- The canonical form of Memory: addresses strictly rising, every entry a cell that is present. -/
abbrev Memory.wf (m : Memory) : Prop := FiniteMap.wf m

/-- The program store (10_state.md R35). -/
abbrev ProgramStore := FiniteMap Entry

/-- The state of one machine instance (10_state.md R20), with the construction parameters of 00_scope.md R5: `NREG` is
the number of data registers held, `NSTAT` the number of status registers held, and `CACHE_CAP` has a field; no step
changes them (log 1). -/
structure State where
  /-- `x`: the data registers (R21). -/
  x : List Value
  /-- `s`: the status registers (R24). -/
  status : List Bool
  /-- The program counter (R25). -/
  pc : Addr
  /-- The run flag (R26). -/
  running : Bool
  /-- The ComplexityCounter (R27). -/
  cost : Nat
  /-- The fault latch (R28). -/
  fault : Option OperationError
  /-- The cache, least recently used entry first (R29). -/
  cache : Cache
  /-- The data Memory (20_memory.md R60). -/
  mem : Memory
  /-- The program store (R35). -/
  prog : ProgramStore
  /-- `CACHE_CAP`, fixed at construction (00_scope.md R5). -/
  cacheCap : Nat
deriving DecidableEq, Repr

/-- Why a state takes no step: the three terminal cases of 40_execution_cycle.md R138. The step function raises them,
no instruction does. Each is safe: the hardware takes no step there either (log 12). -/
inductive Fault where
  /-- Raised by the step in a state whose run flag is false: the run has ended normally after a HALT. Safe. -/
  | halted
  /-- Raised by the step in a running state with no entry at `pc`: the run has ended normally, "ran off the end of the
  program". Safe. -/
  | ranOffEnd
  /-- Raised by the step in a state whose fault latch is set: an `OperationError` aborted the run. Safe. -/
  | aborted (e : OperationError)
deriving DecidableEq, Repr

/-- Why an instruction is given no meaning. -/
inductive Refusal where
  /-- Raised by an arm of `exec` whose instruction has no meaning yet; no arm does. Safe. -/
  | notModelled (mnemonic : String)
deriving DecidableEq, Repr

/-- A freshly constructed instance (70_reset_and_hazards.md R230, 10_state.md R39). The values of `pc`, `running`,
`cost`, `cache`, `prog` and `fault` are the spec's own decisions D14 and D16 (log 2). -/
def State.construct (c : Config) : State where
  x := List.replicate c.nreg 0
  status := List.replicate c.nstat false
  pc := 0
  running := true
  cost := 0
  fault := none
  cache := []
  mem := []
  prog := []
  cacheCap := c.cacheCap

/-- The machine right after reset, in the reference configuration.
DESIGN CHOICE: the spec leaves the three sizes open (92_eei_decisions.md D2; log 1). -/
def State.reset : State := State.construct Config.reference

end Sys2Proof.Machine
end

