-- ==== Sys2Proof/Machine/Ops.lean ====
section
/-! DEFINITION. The named operations: direct views of the state, register access through the cache, Memory access,
raising an error, the cost of an instruction and its completion. -/

namespace Sys2Proof.Machine

/-! ### Views of the state -/

/-- `NREG` of the instance. -/
def State.nreg (s : State) : Nat := s.x.length

/-- `NSTAT` of the instance. -/
def State.nstat (s : State) : Nat := s.status.length

/-- The parameters the instance was constructed with (00_scope.md R5). -/
def State.config (s : State) : Config := ⟨s.nreg, s.nstat, s.cacheCap⟩

/-- `x[i]`, the direct read, with no cache effect (00_scope.md R10); only indices below `NREG` mean anything. -/
def State.reg (s : State) (i : Nat) : Value := s.x.getD i 0

/-- `s[j]`; only indices below `NSTAT` mean anything. -/
def State.flag (s : State) (j : Nat) : Bool := s.status.getD j false

/-! ### Updates of one part of the state -/

/-- `pc <- target`. -/
def State.setPc (s : State) (target : Addr) : State := { s with pc := target }

/-- `pc <- pc + 1`: the advance of a fetch (40_execution_cycle.md R132). -/
def State.advance (s : State) : State := { s with pc := s.pc + 1 }

/-- `running <- false` (41_system.md R151). -/
def State.stopRun (s : State) : State := { s with running := false }

/-- `cost <- cost + n` (40_execution_cycle.md R136). -/
def State.addCost (s : State) (n : Nat) : State := { s with cost := s.cost + n }

/-- `cache <- c`. -/
def State.setCache (s : State) (c : Cache) : State := { s with cache := c }

/-- `s[j] <- b`, for `j` below `NSTAT`. -/
def State.setFlag (s : State) (j : Nat) (b : Bool) : State := { s with status := s.status.set j b }

/-- Raising an `OperationError`, the one way an instruction fails: the fault latch records it and nothing else changes.
The rest of the operation is not performed (`Access.bind`) and no cost is added (`retire`); the state is terminal
(60_exceptions.md R204, 10_state.md R28). There is no handler and no return (60_exceptions.md R208, R209). -/
def State.raise (s : State) (e : OperationError) : State := { s with fault := some e }

/-! ### What an access answers -/

/-- An access that may raise: either a value and the state after it, or the state with the error latched. -/
inductive Access (α : Type) where
  | done (v : α) (s : State)
  | raised (s : State)
deriving DecidableEq, Repr

/-- Go on with the value and the state of a completed access; a raised error skips the rest (60_exceptions.md R204). -/
def Access.bind {α β : Type} (m : Access α) (f : α → State → Access β) : Access β :=
  match m with
  | .done v s => f v s
  | .raised s => .raised s

/-! ### The cache -/

/-- The cached value of a data register, if it is cached. -/
def Cache.find : Cache → Nat → Option Value
  | [], _ => none
  | (k, v) :: c, i => if i = k then some v else Cache.find c i

/-- The cache without the entry of register `i`. -/
def Cache.remove (c : Cache) (i : Nat) : Cache := c.filter fun e => e.1 != i

/-- A hit: the entry moves to the most-recently-used end (10_state.md R31). -/
def Cache.promote (c : Cache) (i : Nat) (v : Value) : Cache := c.remove i ++ [(i, v)]

/-- A miss: the entry is appended at the most-recently-used end, and if the cache is then over its capacity the
least-recently-used entry is removed (10_state.md R31). -/
def Cache.insert (cap : Nat) (c : Cache) (i : Nat) (v : Value) : Cache :=
  if cap < (c ++ [(i, v)]).length then (c ++ [(i, v)]).tail else c ++ [(i, v)]

/-- A write: the entry of register `i`, if there is one, is replaced at the same position (10_state.md R32). -/
def Cache.update (c : Cache) (i : Nat) (v : Value) : Cache := c.map fun e => if e.1 = i then (i, v) else e

/-! ### Data registers -/

/-- The error of a data-register index out of range (10_state.md R38). -/
def dataIndexError (i : Nat) : OperationError := ⟨.data, i⟩

/-- `RegFetch(i)`: the read path through the cache (10_state.md R31). -/
def regFetch (i : Nat) (s : State) : Access Value :=
  if i < s.nreg then
    match Cache.find s.cache i with
    | some v => .done v (s.setCache (Cache.promote s.cache i v))
    | none => .done (s.reg i) (s.setCache (Cache.insert s.cacheCap s.cache i (s.reg i)))
  else .raised (s.raise (dataIndexError i))

/-- `x[i] <- v` and the in-place update of a cached copy: the write-through of 10_state.md R32 for an index in range,
also what an initial-data entry does (70_reset_and_hazards.md R231). -/
def State.setReg (s : State) (i : Nat) (v : Value) : State :=
  { s with x := s.x.set i v, cache := Cache.update s.cache i v }

/-- `RegWrite(i, v)`: the write path (10_state.md R32). -/
def regWrite (i : Nat) (v : Value) (s : State) : Access Unit :=
  if i < s.nreg then .done () (s.setReg i v) else .raised (s.raise (dataIndexError i))

/-! ### Memory -/

/-- What an absent address reads as (20_memory.md R60). -/
def absentCell : Value := 0

/-- The value of a cell: its entry's, or that of an absent address (20_memory.md R61). -/
def Memory.read (m : Memory) (addr : Addr) : Value := (FiniteMap.find m addr).getD absentCell

/-- `MemRead(addr, 1)`: it changes nothing and cannot fail (20_memory.md R61). -/
def memRead (addr : Addr) (s : State) : Value := Memory.read s.mem addr

/-- `MemWrite(addr, 1, v)`: the entry is created or replaced, also when `v` is 0 (20_memory.md R62). -/
def memWrite (addr : Addr) (v : Value) (s : State) : State := { s with mem := FiniteMap.bind s.mem addr v }

/-! ### Cost and completion -/

/-- `Cost(i)` (40_execution_cycle.md R136). -/
def cost : Instr → Nat
  | .nop | .halt => 0
  | .cmp _ _ _ | .cne _ _ _ | .add _ _ _ | .sub _ _ _ | .mult _ _ _ | .jmpc _ _ | .jmpu _ => 4
  | .load _ _ | .store _ _ => 2

/-- The end of an instruction (40_execution_cycle.md R130, R136): a completed operation adds its cost, one that raised
adds nothing. Both are next states (log 11, log 19). -/
def retire (n : Nat) (m : Access Unit) : Host.Outcome State Fault Refusal :=
  match m with
  | .done _ s => .next (s.addCost n)
  | .raised s => .next s

end Sys2Proof.Machine
end

