-- ==== Sys2Proof/Machine/Flags.lean ====
section
/-! DEFINITION. The status registers: their access and the two conditions written into them (10_state.md R24, R34,
42_compare.md R160 to R162). The machine has no arithmetic flags (43_arithmetic.md R170 to R173). -/

namespace Sys2Proof.Machine

/-- The error of a status-register index out of range (10_state.md R34, 92_eei_decisions.md D12; log 8). -/
def statusIndexError (j : Nat) : OperationError := ⟨.status, j⟩

/-- `StatusRead(j)` (10_state.md R34). -/
def statusRead (j : Nat) (s : State) : Access Bool :=
  if j < s.nstat then .done (s.flag j) s else .raised (s.raise (statusIndexError j))

/-- `StatusWrite(j, b)` (10_state.md R34). -/
def statusWrite (j : Nat) (b : Bool) (s : State) : Access Unit :=
  if j < s.nstat then .done () (s.setFlag j b) else .raised (s.raise (statusIndexError j))

/-- The condition CMP writes: equality of integers (42_compare.md R160). -/
def valuesEqual (a b : Value) : Bool := decide (a = b)

/-- The condition CNE writes: inequality of integers (42_compare.md R161). -/
def valuesDiffer (a b : Value) : Bool := decide (a ≠ b)

end Sys2Proof.Machine
end

