-- ==== Sys2Proof/Machine/Operands.lean ====
section
/-! DEFINITION. Source operands and the routine the five three-operand instructions share (40_execution_cycle.md R135,
R139). -/

namespace Sys2Proof.Machine

/-- `Resolve(o)`: a literal is its integer, with no access; a register reference is fetched through the cache
(40_execution_cycle.md R135, 43_arithmetic.md R174). -/
def resolve (o : Src) (s : State) : Access Value :=
  match o with
  | .lit n => .done n s
  | .reg i => regFetch i s

/-- `BinOp(f, a, b, d, writeback)`: operand 1, then operand 2, then the destination (40_execution_cycle.md R139). -/
def binOp {β : Type} (f : Value → Value → β) (a b : Src) (d : Nat) (writeback : Nat → β → State → Access Unit)
    (s : State) : Access Unit :=
  (resolve a s).bind fun va s₁ => (resolve b s₁).bind fun vb s₂ => writeback d (f va vb) s₂

end Sys2Proof.Machine
end

