-- ==== Sys2Proof/Machine/Arithmetic.lean ====
section
/-! DEFINITION. ADD, SUB and MULT, exact on the integers (43_arithmetic.md). -/

namespace Sys2Proof.Machine

/-- ADD: `x[d] <- a + b` (43_arithmetic.md R170). -/
def execAdd (a b : Src) (d : Nat) (s : State) : Host.Outcome State Fault Refusal :=
  retire (cost (.add a b d)) (binOp (· + ·) a b d regWrite s)

/-- SUB: `x[d] <- a - b`, operand 1 minus operand 2 (43_arithmetic.md R171; log 7). -/
def execSub (a b : Src) (d : Nat) (s : State) : Host.Outcome State Fault Refusal :=
  retire (cost (.sub a b d)) (binOp (· - ·) a b d regWrite s)

/-- MULT: `x[d] <- a * b` (43_arithmetic.md R172). -/
def execMult (a b : Src) (d : Nat) (s : State) : Host.Outcome State Fault Refusal :=
  retire (cost (.mult a b d)) (binOp (· * ·) a b d regWrite s)

end Sys2Proof.Machine
end

