-- ==== Sys2Proof/Machine/Compare.lean ====
section
/-! DEFINITION. CMP and CNE (42_compare.md). -/

namespace Sys2Proof.Machine

/-- CMP: `s[d] <- (a = b)` (42_compare.md R160). -/
def execCmp (a b : Src) (d : Nat) (s : State) : Host.Outcome State Fault Refusal :=
  retire (cost (.cmp a b d)) (binOp valuesEqual a b d statusWrite s)

/-- CNE: `s[d] <- (a != b)` (42_compare.md R161). -/
def execCne (a b : Src) (d : Nat) (s : State) : Host.Outcome State Fault Refusal :=
  retire (cost (.cne a b d)) (binOp valuesDiffer a b d statusWrite s)

end Sys2Proof.Machine
end

