-- ==== Sys2Proof/Machine/Jump.lean ====
section
/-! DEFINITION. The two forms of JMP (45_jump.md). -/

namespace Sys2Proof.Machine

/-- JMP, conditional form: `pc <- target` if the status register is true, else `pc` stays as the fetch left it
(45_jump.md R191). -/
def execJmpc (target : Addr) (j : Nat) (s : State) : Host.Outcome State Fault Refusal :=
  retire (cost (.jmpc target j)) ((statusRead j s).bind fun c s₁ => .done () (if c then s₁.setPc target else s₁))

/-- JMP, unconditional form: `pc <- target` (45_jump.md R190). -/
def execJmpu (target : Addr) (s : State) : Host.Outcome State Fault Refusal :=
  retire (cost (.jmpu target)) (.done () (s.setPc target))

end Sys2Proof.Machine
end

