-- ==== Sys2Proof/Machine/LoadStore.lean ====
section
/-! DEFINITION. LOAD and STORE (44_load_store.md). -/

namespace Sys2Proof.Machine

/-- LOAD: the cell is read, then the register is written through the write path (44_load_store.md R180). -/
def execLoad (addr : Addr) (d : Nat) (s : State) : Host.Outcome State Fault Refusal :=
  retire (cost (.load addr d)) (regWrite d (memRead addr s) s)

/-- STORE: the register is fetched through the cache, then the cell is written (44_load_store.md R181; log 7). -/
def execStore (r : Nat) (addr : Addr) (s : State) : Host.Outcome State Fault Refusal :=
  retire (cost (.store r addr)) ((regFetch r s).bind fun v s₁ => .done () (memWrite addr v s₁))

end Sys2Proof.Machine
end

