-- ==== Sys2Proof/Machine/System.lean ====
section
/-! DEFINITION. NOP and HALT (41_system.md). A meaning runs on the state after the fetch, whose `pc` is already the
instruction's address plus 1 (40_execution_cycle.md R132; log 19). -/

namespace Sys2Proof.Machine

/-- NOP: no state change (41_system.md R150). -/
def execNop (s : State) : Host.Outcome State Fault Refusal :=
  retire (cost .nop) (.done () s)

/-- HALT: `running <- false` (41_system.md R151). -/
def execHalt (s : State) : Host.Outcome State Fault Refusal :=
  retire (cost .halt) (.done () s.stopRun)

end Sys2Proof.Machine
end

