-- ==== Sys2Proof/Machine/Dispatch.lean ====
section
/-! DEFINITION. The dispatcher: one arm per instruction (40_execution_cycle.md R134). -/

namespace Sys2Proof.Machine

def exec (i : Instr) (s : State) : Host.Outcome State Fault Refusal :=
  match i with
  | .nop => Sys2Proof.Machine.execNop s
  | .halt => Sys2Proof.Machine.execHalt s
  | .cmp a b d => Sys2Proof.Machine.execCmp a b d s
  | .cne a b d => Sys2Proof.Machine.execCne a b d s
  | .jmpc target j => Sys2Proof.Machine.execJmpc target j s
  | .jmpu target => Sys2Proof.Machine.execJmpu target s
  | .load addr d => Sys2Proof.Machine.execLoad addr d s
  | .store r addr => Sys2Proof.Machine.execStore r addr s
  | .add a b d => Sys2Proof.Machine.execAdd a b d s
  | .sub a b d => Sys2Proof.Machine.execSub a b d s
  | .mult a b d => Sys2Proof.Machine.execMult a b d s

end Sys2Proof.Machine
end

