-- ==== Sys2Proof/Machine/Cycle.lean ====
section
/-! DEFINITION. One fetch-decode-execute cycle (40_execution_cycle.md R130 to R133, R138). -/

namespace Sys2Proof.Machine

/-- The terminal case of a state, if it is terminal (40_execution_cycle.md R138). -/
def State.terminal? (s : State) : Option Fault :=
  match s.fault with
  | some e => some (.aborted e)
  | none =>
    if s.running then
      match FiniteMap.find s.prog s.pc with
      | none => some .ranOffEnd
      | some _ => none
    else some .halted

/-- What a fetched entry does: a Data entry is skipped, an instruction is executed, both on the state whose `pc` the
fetch has advanced (40_execution_cycle.md R130, R132, R133). -/
def execEntry (e : Entry) (s : State) : Host.Outcome State Fault Refusal :=
  match e with
  | .data _ => .next s.advance
  | .instr i => exec i s.advance

/-- One cycle (40_execution_cycle.md R130): the continuation test, the fetch, and the entry. A terminal state takes no
step; the answer names its case (log 12). -/
def cycle (s : State) : Host.Outcome State Fault Refusal :=
  match s.fault with
  | some e => .fault (.aborted e)
  | none =>
    if s.running then
      match FiniteMap.find s.prog s.pc with
      | none => .fault .ranOffEnd
      | some e => execEntry e s
    else .fault .halted

end Sys2Proof.Machine
end

