-- ==== Sys2Proof/Machine/Step.lean ====
section
/-! DEFINITION. The step of the machine, and the state whose next step runs a given instruction word. -/

namespace Sys2Proof.Machine

/-- One step of the machine: one cycle (40_execution_cycle.md R130). -/
def step (s : State) : Host.Outcome State Fault Refusal := cycle s

/-- The state with the instruction of a word at the address the next cycle fetches from. The program store holds
decoded instructions and is filled by the loader alone, so this stands for the load of that word; a word that does not
decode fails the load and leaves the store as it was (70_reset_and_hazards.md R233, 30_encoding.md R86, R97; log 20). -/
def State.withFetchWord (s : State) (nbits w : Nat) : State :=
  match decodeTableWord nbits w with
  | none => s
  | some i => { s with prog := FiniteMap.bind s.prog s.pc (.instr i) }

end Sys2Proof.Machine
end

