-- ==== Sys2Proof/Machine/Run.lean ====
section
/-! DEFINITION. The run of a loaded machine and the snapshot it returns (40_execution_cycle.md R137, R138,
70_reset_and_hazards.md R235, R236). -/

namespace Sys2Proof.Machine

/-- The snapshot returned at a normal end of a run (70_reset_and_hazards.md R236). -/
structure Snapshot where
  dataRegisters : List Value
  statusRegisters : List Bool
  memory : Memory
  /-- Least recently used first. -/
  cache : Cache
  pc : Addr
  cost : Nat
deriving DecidableEq, Repr

/-- The snapshot of a state (70_reset_and_hazards.md R236). -/
def State.snapshot (s : State) : Snapshot := ⟨s.x, s.status, s.mem, s.cache, s.pc, s.cost⟩

/-- How a run stands after some number of steps. -/
inductive RunResult where
  /-- The run has ended in this terminal case, in this state. -/
  | ended (why : Fault) (s : State)
  /-- An instruction without a meaning was met; none exists. -/
  | refused (why : Refusal)
  /-- The fuel is used up. Running out of fuel is the executor's, not a state of the machine
  (93_implementation_defined.md U4; log 23). -/
  | unfinished (s : State)
deriving DecidableEq, Repr

/-- At most `fuel` steps of a run: the step is repeated until the state is terminal (70_reset_and_hazards.md R235). The
fuel is no part of the hardware (40_execution_cycle.md R137; log 23). -/
def runFor : Nat → State → RunResult
  | 0, s =>
    match s.terminal? with
    | some f => .ended f s
    | none => .unfinished s
  | fuel + 1, s =>
    match step s with
    | .next t => runFor fuel t
    | .fault f => .ended f s
    | .refused r => .refused r

/-- What the caller of a run receives: a snapshot after a normal end, the error after an abort
(70_reset_and_hazards.md R235, 60_exceptions.md R205). `none` while the run has not ended. -/
def RunResult.toCaller : RunResult → Option (Except OperationError Snapshot)
  | .ended .halted s => some (.ok s.snapshot)
  | .ended .ranOffEnd s => some (.ok s.snapshot)
  | .ended (.aborted e) _ => some (.error e)
  | .refused _ => none
  | .unfinished _ => none

end Sys2Proof.Machine
end

