-- ==== Sys2Proof/Machine/Interface.lean ====
section
/-! DEFINITION. The host interface as transactions: initial data, program load, run (70_reset_and_hazards.md R231 to
R237, R241). -/

namespace Sys2Proof.Machine

/-! ### Initial data -/

/-- Why an initial-data load fails (60_exceptions.md R202, 70_reset_and_hazards.md R231, R232). -/
inductive RangeError where
  /-- The line does not have exactly two tokens (92_eei_decisions.md D22). -/
  | notTwoTokens
  /-- The register index is not a bare integer. -/
  | indexNotInteger
  /-- The value is not a signed integer. -/
  | valueNotInteger
  /-- The register index is not below `NREG`. -/
  | indexOutOfRange (i : Nat)
deriving DecidableEq, Repr

/-- One initial-data line as its two integers (70_reset_and_hazards.md R232).
DESIGN CHOICE: of a line with several of these defects the number of tokens is reported before the fields, and the index
before the value; the spec orders only a non-integer field before an index out of range (92_eei_decisions.md D20;
log 25). -/
def parseInitialLine (line : Line) : Except RangeError (Nat × Value) :=
  match tokensOf line with
  | [index, value] =>
    match bareInteger index with
    | none => .error .indexNotInteger
    | some i =>
      match signedInteger value with
      | none => .error .valueNotInteger
      | some v => .ok (i, v)
  | _ => .error .notTwoTokens

/-- One initial-data entry: `RegWrite` semantics with `RangeError` in place of `OperationError` (10_state.md R41,
70_reset_and_hazards.md R231). -/
def State.loadEntry (s : State) (i : Nat) (v : Value) : Except RangeError State :=
  if i < s.nreg then .ok (s.setReg i v) else .error (.indexOutOfRange i)

/-- Initial-data entries, applied in order; the first bad one fails the load (70_reset_and_hazards.md R231). -/
def State.loadInitialData (s : State) : List (Nat × Value) → Except RangeError State
  | [] => .ok s
  | (i, v) :: entries =>
    match s.loadEntry i v with
    | .error e => .error e
    | .ok t => t.loadInitialData entries

/-- Initial-data lines, each parsed and then applied, in order (70_reset_and_hazards.md R232, 60_exceptions.md R207). -/
def State.loadInitialLines (s : State) : List Line → Except RangeError State
  | [] => .ok s
  | line :: lines =>
    match parseInitialLine line with
    | .error e => .error e
    | .ok (i, v) =>
      match s.loadEntry i v with
      | .error e => .error e
      | .ok t => t.loadInitialLines lines

/-! ### Program load -/

/-- `loadProgram(entries)`: the k-th entry, counted from 1, at instruction address k - 1
(70_reset_and_hazards.md R233, 30_encoding.md R100). -/
def State.loadProgram (s : State) (entries : List Entry) : State := { s with prog := FiniteMap.ofList 0 entries }

/-- The load of source lines: all of them decode and are stored, or the load fails and nothing is stored
(30_encoding.md R97). -/
def State.loadLines (m : OpMap) (mark : Char) (f : Format) (lines : List Line) (s : State) :
    Except ValidationError State :=
  match decodeProgram m mark f lines with
  | .error e => .error e
  | .ok is => .ok (s.loadProgram (is.map Entry.instr))

/-! ### The life of one instance -/

/-- An instance as the host sees it: its machine and which transactions it has had (70_reset_and_hazards.md R241). -/
structure Instance where
  machine : State
  dataLoaded : Bool
  programLoaded : Bool
  hasRun : Bool
  /-- A load has failed and the instance must be discarded (70_reset_and_hazards.md R231, 93_implementation_defined.md
  U10). -/
  discarded : Bool
deriving DecidableEq, Repr

/-- Transactions the spec gives no meaning to and a model refuses (70_reset_and_hazards.md R237, 92_eei_decisions.md
D22, D23; log 17). -/
inductive Misuse where
  /-- Raised by a transaction on an instance whose load has failed. -/
  | afterLoadError
  /-- Raised by a load after the run. -/
  | loadAfterRun
  /-- Raised by a second initial-data load. -/
  | secondInitialData
  /-- Raised by a second program load. -/
  | secondProgram
  /-- Raised by a run before the program load. -/
  | runWithoutProgram
  /-- Raised by a second run. -/
  | secondRun
deriving DecidableEq, Repr

/-- What a transaction answers: it is performed, it fails with the error of its load, or it is refused. A failed load
answers the discarded instance beside the error. -/
inductive Transaction (ε α : Type) where
  | performed (v : α)
  | failed (e : ε) (discarded : Instance)
  | refused (why : Misuse)
deriving DecidableEq, Repr

/-- Transaction 1, construct (70_reset_and_hazards.md R230). -/
def Instance.construct (c : Config) : Instance := ⟨State.construct c, false, false, false, false⟩

/-- The instance after a failed load: its machine is as it was before the load, and it must be discarded
(60_exceptions.md R201, 70_reset_and_hazards.md R231). After a failed initial-data load the spec says nothing of the
machine, and no transaction can show it (log 17). -/
def Instance.discard (i : Instance) : Instance := { i with discarded := true }

/-- Transaction 2, load initial data (70_reset_and_hazards.md R231, R232). -/
def Instance.loadInitialLines (i : Instance) (lines : List Line) : Transaction RangeError Instance :=
  if i.discarded then .refused .afterLoadError
  else if i.hasRun then .refused .loadAfterRun
  else if i.dataLoaded then .refused .secondInitialData
  else
    match i.machine.loadInitialLines lines with
    | .error e => .failed e i.discard
    | .ok s => .performed { i with machine := s, dataLoaded := true }

/-- Transaction 3, load program, with the decoding that precedes it (70_reset_and_hazards.md R233). -/
def Instance.loadLines (m : OpMap) (mark : Char) (f : Format) (i : Instance) (lines : List Line) :
    Transaction ValidationError Instance :=
  if i.discarded then .refused .afterLoadError
  else if i.hasRun then .refused .loadAfterRun
  else if i.programLoaded then .refused .secondProgram
  else
    match i.machine.loadLines m mark f lines with
    | .error e => .failed e i.discard
    | .ok s => .performed { i with machine := s, programLoaded := true }

/-- Transaction 3 with entries the loader hands over itself, Data entries among them (30_encoding.md R104). It cannot
fail (70_reset_and_hazards.md R233). -/
def Instance.loadEntries (i : Instance) (entries : List Entry) : Transaction Empty Instance :=
  if i.discarded then .refused .afterLoadError
  else if i.hasRun then .refused .loadAfterRun
  else if i.programLoaded then .refused .secondProgram
  else .performed { i with machine := i.machine.loadProgram entries, programLoaded := true }

/-- The instance after its run has come to the state `s`. -/
def Instance.afterRun (i : Instance) (s : State) : Instance := { i with machine := s, hasRun := true }

/-- Transactions 4 and 5, run and snapshot, for an executor that takes at most `fuel` steps (70_reset_and_hazards.md
R235, R236): what the caller receives, if the run has ended, and how the run stands. -/
def Instance.run (fuel : Nat) (i : Instance) :
    Transaction Empty (Option (Except OperationError Snapshot) × RunResult × Instance) :=
  if i.discarded then .refused .afterLoadError
  else if i.hasRun then .refused .secondRun
  else if i.programLoaded then
    match runFor fuel i.machine with
    | .ended f s => .performed ((RunResult.ended f s).toCaller, .ended f s, i.afterRun s)
    | .unfinished s => .performed (none, .unfinished s, i.afterRun s)
    | .refused r => .performed (none, .refused r, i.afterRun i.machine)
  else .refused .runWithoutProgram

end Sys2Proof.Machine
end

