-- ==== Sys2Proof/Safety.lean ====
section
/-! DEFINITION. What counts as a good state and a safe run: the invariants of the spec, the reachable states, the views
of a state that claims compare. -/

namespace Sys2Proof.Machine

/-- The cache invariants of 10_state.md R30 over a register file: capacity, distinct indices, indices in range with the
register's own value. -/
structure Cache.Coherent (cap : Nat) (x : List Value) (c : Cache) : Prop where
  /-- Item 1: the cache never holds more entries than its capacity. -/
  capacity : c.length ≤ cap
  /-- Item 2: no two entries have the same register index. -/
  distinct : (c.map Prod.fst).Nodup
  /-- Items 3 and 4: every cached index is a register, and the cached value is that register's. -/
  coherent : ∀ e ∈ c, x[e.1]? = some e.2

/-- The invariant of the machine: the cache invariants (10_state.md R30), Memory and the program store in canonical
form. -/
structure State.Inv (s : State) : Prop where
  cache : Cache.Coherent s.cacheCap s.x s.cache
  mem : Memory.wf s.mem
  prog : FiniteMap.wf s.prog

/-- The states of an instance from its load on (70_reset_and_hazards.md R241): constructed with any sizes, initial data
and a program loaded, then stepped. -/
inductive Reachable : State → Prop where
  | loaded (c : Config) (initial : List (Nat × Value)) (entries : List Entry) (s : State)
      (h : (State.construct c).loadInitialData initial = .ok s) : Reachable (s.loadProgram entries)
  | stepped (s t : State) (hs : Reachable s) (h : step s = .next t) : Reachable t

/-- A run has gone wrong when an `OperationError` aborted it (60_exceptions.md R205). -/
def State.Aborted (s : State) : Prop := s.fault.isSome = true

/-- A safe run: no number of steps from the state leads to an aborted one (60_exceptions.md R205). -/
def State.RunsSafely (s : State) : Prop :=
  ∀ (n : Nat) (t : State), Host.Core.run Sys2Proof.core n s = .next t → ¬ t.Aborted

/-- Two states that differ at most in the cache and its capacity, the state no program can observe (10_state.md R33,
R40). -/
def State.SameButCache (s t : State) : Prop :=
  t = { s with cache := t.cache, cacheCap := t.cacheCap }

/-- The value a source operand stands for: a literal's integer, a register's content (40_execution_cycle.md R135). -/
def State.srcValue (s : State) : Src → Value
  | .lit n => n
  | .reg i => s.reg i

/-- The cache after one source operand has been read from a coherent cache: a register's entry stands at the
most-recently-used end, and an entry more than the capacity pushes the least recently used one out (10_state.md R31). -/
def State.lruTouch (s : State) (c : Cache) : Src → Cache
  | .lit _ => c
  | .reg i =>
    let c' := (c.filter fun e => e.1 != i) ++ [(i, s.reg i)]
    if s.cacheCap < c'.length then c'.tail else c'

/-- The cache after both sources, operand 1 first (40_execution_cycle.md R139). -/
def State.lruTouchBoth (s : State) (a b : Src) : Cache := s.lruTouch (s.lruTouch s.cache a) b

/-- A sequence of fetches, one after the other. -/
def fetchAll : List Nat → State → State
  | [], s => s
  | r :: rs, s =>
    match regFetch r s with
    | .done _ t => fetchAll rs t
    | .raised t => t

/-- The error a source operand's register reference would raise. -/
def srcAccesses : Src → List OperationError
  | .lit _ => []
  | .reg i => [⟨.data, i⟩]

/-- The errors an instruction's register accesses would raise, in the order of the accesses (60_exceptions.md R203, R207
item 4). -/
def registerAccesses : Instr → List OperationError
  | .nop | .halt | .jmpu _ => []
  | .cmp a b d | .cne a b d => srcAccesses a ++ srcAccesses b ++ [⟨.status, d⟩]
  | .add a b d | .sub a b d | .mult a b d => srcAccesses a ++ srcAccesses b ++ [⟨.data, d⟩]
  | .jmpc _ j => [⟨.status, j⟩]
  | .load _ d => [⟨.data, d⟩]
  | .store r _ => [⟨.data, r⟩]

/-- The access is to an index outside its register file (60_exceptions.md R203). -/
def State.outside (s : State) (e : OperationError) : Bool :=
  match e.file with
  | .data => decide (s.nreg ≤ e.index)
  | .status => decide (s.nstat ≤ e.index)

/-- The arities the text form allows for a mnemonic (30_encoding.md R82, R95). -/
def textArities : Mnemonic → List Nat
  | .NOP | .HALT => [0]
  | .CMP | .CNE | .ADD | .SUB | .MULT => [3]
  | .LOAD | .STORE => [2]
  | .JMP => [1, 2]

/-- The operand token matches what the grammar requires at its position, counted from 1 (30_encoding.md R94). -/
def operandMatches (mark : Char) (op : Mnemonic) (position : Nat) (token : Line) : Bool :=
  match op with
  | .CMP | .CNE | .ADD | .SUB | .MULT =>
    if position < 3 then (sourceToken mark token).isSome else (bareInteger token).isSome
  | _ => (bareInteger token).isSome

end Sys2Proof.Machine
end

