-- ==== Sys2Proof/Certificates/Slice0/Obligations.lean ====
section
/-! DEFINITION. The statements for the provers. Each docstring says which rule of the spec it formalises; where a rule is
the spec's own decision (a mark D<n> of 92_eei_decisions.md) or its own inference, the docstring says so. -/

open Sys2Proof Sys2Proof.Machine

/-! ### Encoding and decoding -/

/-- 30_encoding.md R90 (the spec's D8; log 5): `Decode16(Encode16(i)) = i` for every instruction the 16-bit form can
express, whatever injective opcode table is used. -/
def Obligations.EncodedInstructionDecodesBack : Prop :=
  ∀ m : OpMap, m.WellFormed → ∀ i : Instr, i.encodable = true → decode16 m (encode m i) = some i

/-- 30_encoding.md R83, R87, R88, R90 (the spec's D7, D8; log 5): what a word decodes to determines its opcode field and
every kept field, and the encoder writes the discarded fields as zero. -/
def Obligations.DecodedWordKeepsItsFields : Prop :=
  ∀ (m : OpMap) (w : Word) (i : Instr), decode16 m w = some i →
    i.encodable = true ∧ wordField w 12 = m i.label ∧
      (∀ k, k < i.label.arity → wordField (encode m i) (8 - 4 * k) = wordField w (8 - 4 * k)) ∧
      (∀ k, i.label.arity ≤ k → k < 3 → wordField (encode m i) (8 - 4 * k) = 0)

/-- 30_encoding.md R87 (the spec's D8; log 5): two words that agree on the opcode and on the kept fields decode to the
same instruction, whatever their discarded fields hold. -/
def Obligations.DiscardedFieldsAreIgnored : Prop :=
  ∀ (m : OpMap) (w w' : Word), wordField w 12 = wordField w' 12 →
    (∀ l, m.labelOf (wordField w 12) = some l → ∀ k, k < l.arity → wordField w (8 - 4 * k) = wordField w' (8 - 4 * k)) →
      decode16 m w = decode16 m w'

/-- 30_encoding.md R86 (the default table is the spec's D3; log 4): a word whose opcode is not in the table does not
decode, and a binary program that holds its line fails to load; with the default table these are the opcodes 0xB to 0xF. -/
def Obligations.UnassignedOpcodeFailsTheLoad : Prop :=
  (∀ (m : OpMap) (w : Word), decode16 m w = none ↔ ∀ l, m l ≠ wordField w 12) ∧
    (∀ w : Word, decode16 OpMap.default w = none ↔ 11 ≤ (wordField w 12).toNat) ∧
      (∀ (m : OpMap) (mark : Char) (w : Word) (lines : List Line) (s : State), (∀ l, m l ≠ wordField w 12) →
        lineOfWord w ∈ lines → ∃ e, s.loadLines m mark .binary lines = .error e)

/-- 30_encoding.md R89 (the order of the checks is the spec's D20, the bit order its D4; log 5, log 15): the binary
decoder on every line. A line of another length; a line of 16 characters whose first character that is not `0` or `1`
stands at position k, in field k / 4 + 1; and a line of 16 binary characters, which is the line of some word and decodes
as that word. -/
def Obligations.BinaryLineDecoderFollowsItsChecks : Prop :=
  ∀ (m : OpMap) (text : Line) (n : Nat),
    (text.length ≠ 16 → decodeBinaryLine m text n = .error ⟨n, .lineLength⟩) ∧
      (∀ (k : Nat) (c : Char), text.length = 16 → text[k]? = some c → isBit c = false →
        (∀ (j : Nat) (c' : Char), j < k → text[j]? = some c' → isBit c' = true) →
          decodeBinaryLine m text n = .error ⟨n, .fieldNotBinary (k / 4 + 1)⟩) ∧
      (text.length = 16 → (∀ c ∈ text, isBit c = true) → ∃ w, text = lineOfWord w) ∧
      (∀ w, text = lineOfWord w → decodeBinaryLine m text n =
        match decode16 m w with
        | none => .error ⟨n, .unrecognizedBinaryOpcode⟩
        | some i => .ok i)

/-- 30_encoding.md R85, R87, R88 (the opcode values are the spec's D3; log 4): words written out from the encoding, at
least one for each label, decode to the instruction they stand for, and two with unassigned opcodes do not decode. The
words are those of 95_test_vectors.md B1 to B14. -/
def Obligations.WrittenOutWordsDecode : Prop :=
  decode16 OpMap.default 0b0000000000000000#16 = some .nop ∧
    decode16 OpMap.default 0b0000111111111111#16 = some .nop ∧
    decode16 OpMap.default 0b0001000000000000#16 = some .halt ∧
    decode16 OpMap.default 0b0010000100110000#16 = some (.cmp (.reg 1) (.reg 3) 0) ∧
    decode16 OpMap.default 0b0011000100110010#16 = some (.cne (.reg 1) (.reg 3) 2) ∧
    decode16 OpMap.default 0b0100011000000000#16 = some (.jmpc 6 0) ∧
    decode16 OpMap.default 0b0101000011111111#16 = some (.jmpu 0) ∧
    decode16 OpMap.default 0b0110011100101111#16 = some (.load 7 2) ∧
    decode16 OpMap.default 0b0111000010010000#16 = some (.store 0 9) ∧
    decode16 OpMap.default 0b1000000100100011#16 = some (.add (.reg 1) (.reg 2) 3) ∧
    decode16 OpMap.default 0b1001000100100001#16 = some (.sub (.reg 1) (.reg 2) 1) ∧
    decode16 OpMap.default 0b1010000000010000#16 = some (.mult (.reg 0) (.reg 1) 0) ∧
    decode16 OpMap.default 0b1011000000000000#16 = none ∧
    decode16 OpMap.default 0b1111111111111111#16 = none

/-- 30_encoding.md R91 to R95 (the lexical details are the spec's D5, D6, D21; log 6): the text line of every canonical
instruction, with operands of any size, decodes to it, whatever admissible sentinel is used. -/
def Obligations.TextLineDecodesBack : Prop :=
  ∀ mark : Char, litMarkOk mark = true → ∀ (i : Instr) (n : Nat), decodeTextLine mark (textLine mark i) n = .ok i

/-- 30_encoding.md R95 (the order of the checks is the spec's D20; log 6, log 15): the text decoder rejects a line by the
first check it fails, opcode, then arity, then the operands from left to right, and it accepts every other line. -/
def Obligations.TextDecoderRejectsByTheFirstFailedCheck : Prop :=
  ∀ (mark : Char) (line : Line) (n : Nat),
    (tokensOf line = [] → decodeTextLine mark line n = .error ⟨n, .unrecognizedOpcode⟩) ∧
      (∀ token operands, tokensOf line = token :: operands →
        (mnemonicOf token = none → decodeTextLine mark line n = .error ⟨n, .unrecognizedOpcode⟩) ∧
        (∀ op, mnemonicOf token = some op →
          (operands.length ∉ textArities op → decodeTextLine mark line n = .error ⟨n, .wrongArity⟩) ∧
          (operands.length ∈ textArities op →
            (∀ (k : Nat) (token' : Line), operands[k]? = some token' → operandMatches mark op (k + 1) token' = false →
              (∀ (j : Nat) (token'' : Line), j < k → operands[j]? = some token'' → operandMatches mark op (j + 1) token'' = true) →
                decodeTextLine mark line n = .error ⟨n, .badOperand (k + 1)⟩) ∧
            ((∀ (k : Nat) (token' : Line), operands[k]? = some token' → operandMatches mark op (k + 1) token' = true) →
              ∃ i, decodeTextLine mark line n = .ok i ∧ i.mnemonic = op))))

/-- 30_encoding.md R97 (which line is reported and the numbering from 1 are the spec's D19, D20; log 15): a program load
is all or nothing, and the error reported is that of the first malformed line. -/
def Obligations.FirstMalformedLineFailsTheWholeLoad : Prop :=
  ∀ (m : OpMap) (mark : Char) (f : Format) (lines : List Line),
    (∀ e, decodeProgram m mark f lines = .error e ↔
      ∃ (k : Nat) (line : Line), lines[k]? = some line ∧ decodeLine m mark f line (k + 1) = .error e ∧
        ∀ (j : Nat) (line' : Line), j < k → lines[j]? = some line' → ∃ i, decodeLine m mark f line' (j + 1) = .ok i) ∧
      (∀ is, decodeProgram m mark f lines = .ok is → is.length = lines.length ∧
        ∀ (k : Nat) (line : Line), lines[k]? = some line → ∃ i, is[k]? = some i ∧ decodeLine m mark f line (k + 1) = .ok i)

/-- 30_encoding.md R98: the decoder is chosen by the program's format, and a text program and a binary program encoding
the same logical instructions load to the same machine, so every run of the one returns to the caller what the run of the
other returns, the snapshot of registers, memory, cache, counter and cost included. Instructions that the 16-bit form can
express have such twins. -/
def Obligations.TextAndBinaryTwinsRunAlike : Prop :=
  ∀ (m : OpMap) (mark : Char) (s : State), m.WellFormed → litMarkOk mark = true →
    (∀ (texts : List Line) (words : List Word) (is : List Instr), decodeProgram m mark .text texts = .ok is →
      words.map (decode16 m) = is.map some →
        ∃ t u, s.loadLines m mark .text texts = .ok t ∧ s.loadLines m mark .binary (words.map lineOfWord) = .ok u ∧
          u = t ∧ t = s.loadProgram (is.map Entry.instr) ∧ ∀ fuel, (runFor fuel t).toCaller = (runFor fuel u).toCaller) ∧
      (∀ is : List Instr, (∀ i ∈ is, i.encodable = true) →
        decodeProgram m mark .text (is.map (textLine mark)) = .ok is ∧
          (is.map (encode m)).map (decode16 m) = is.map some)

/-! ### The cycle -/

/-- 40_execution_cycle.md R130, R132: a state that fails the continuation test takes no step; the step of every other
state runs the entry at `pc` on the state with `pc` advanced: a Data entry does nothing more, an instruction is executed.
An instruction adds its cost if and only if it did not raise; one that raises, and a Data entry, leave `pc` at the fetched
address plus 1, and a JMP overwrites it. That a raise and a Data entry add no cost is the spec's D15 (log 10). The model's
own choices are that a raise is a next state with the latch set (log 11), that `exec` runs on the advanced state and adds
the cost itself (log 19). -/
def Obligations.StepRunsTheFetchedEntry : Prop :=
  ∀ s : State,
    (s.fault ≠ none ∨ s.running = false ∨ FiniteMap.find s.prog s.pc = none → ∀ t, step s ≠ .next t) ∧
    (s.fault = none → s.running = true →
      (∀ w, FiniteMap.find s.prog s.pc = some (.data w) → step s = .next { s with pc := s.pc + 1 }) ∧
      (∀ i, FiniteMap.find s.prog s.pc = some (.instr i) →
        step s = exec i { s with pc := s.pc + 1 } ∧
          ∀ t, exec i { s with pc := s.pc + 1 } = .next t →
            (t.fault = none → t.cost = s.cost + cost i) ∧
            (t.fault ≠ none → t.cost = s.cost ∧ t.pc = s.pc + 1) ∧
            (t.pc ≠ s.pc + 1 → ∃ target, t.pc = target ∧ (i = .jmpu target ∨ ∃ j, i = .jmpc target j)) ∧
            (∀ target, i = .jmpu target → t.pc = target)))

/-- 70_reset_and_hazards.md R233, 30_encoding.md R89 (a word loaded at the next fetch address is the model's
`withFetchWord`; log 20): a word that decodes is run by the very next step, as the instruction it decodes to, on the
state whose `pc` the fetch has advanced. -/
def Obligations.LoadedWordIsRunByTheNextStep : Prop :=
  ∀ (s : State) (nbits w : Nat) (i : Instr), decodeTableWord nbits w = some i → s.fault = none → s.running = true →
    step (s.withFetchWord nbits w) = exec i { s.withFetchWord nbits w with pc := s.pc + 1 } ∧
      s.withFetchWord nbits w = { s with prog := FiniteMap.bind s.prog s.pc (.instr i) }

/-- 40_execution_cycle.md R138: the three terminal cases. The step answers `halted`, `ranOffEnd` or `aborted` exactly
when the case holds; R138 says only that no step is enabled, and that the step then answers a fault with the case's name is
the model's own choice (log 12). The state in which a run comes to be halted has `pc` equal to the address of a HALT plus
1, and the final `pc` of a run that ran off the end is the absent address it tried to fetch. -/
def Obligations.StepStopsExactlyInTheTerminalCases : Prop :=
  ∀ s : State,
    (step s = .fault .halted ↔ s.fault = none ∧ s.running = false) ∧
      (step s = .fault .ranOffEnd ↔
        s.fault = none ∧ s.running = true ∧ FiniteMap.find s.prog s.pc = none) ∧
      (∀ e, step s = .fault (.aborted e) ↔ s.fault = some e) ∧
      (∀ f, s.terminal? = some f ↔ step s = .fault f) ∧
      (∀ t, step s = .next t → step t = .fault .halted →
        FiniteMap.find s.prog s.pc = some (.instr .halt) ∧ t.pc = s.pc + 1)

/-- 40_execution_cycle.md R140 (the spec's own inference): every state that is not terminal steps to a next state, and
every instruction completes or aborts in every state; nothing is refused. -/
def Obligations.EveryNonTerminalStateSteps : Prop :=
  (∀ s : State, s.terminal? = none → ∃ t, step s = .next t) ∧
    (∀ (i : Instr) (s : State), ∃ t, exec i s = .next t) ∧
    (∀ (s : State) (r : Refusal), step s ≠ .refused r)

/-- 40_execution_cycle.md R136, 10_state.md R27 (that a failed instruction adds nothing is the spec's D15; log 10): a step
adds the fixed cost of its instruction if it did not abort, and nothing for an abort or a Data entry; so the counter
never decreases. -/
def Obligations.StepAddsTheFixedCost : Prop :=
  ∀ s t : State, step s = .next t →
    (∀ w, FiniteMap.find s.prog s.pc = some (.data w) → t.cost = s.cost) ∧
      (∀ i, FiniteMap.find s.prog s.pc = some (.instr i) → t.fault = none →
        t.cost = s.cost + (if i = .nop ∨ i = .halt then 0
          else if i.label = .load ∨ i.label = .store then 2 else 4)) ∧
      (t.fault ≠ none → t.cost = s.cost) ∧ s.cost ≤ t.cost

/-- 10_state.md R27: the counter is "not used for control decisions": a step from the same state with a larger count does
the same, with the same larger count. -/
def Obligations.CostIsNeverUsedForControl : Prop :=
  ∀ (s : State) (k : Nat),
    (∀ t, step s = .next t → step { s with cost := s.cost + k } = .next { t with cost := t.cost + k }) ∧
      (∀ f, step s = .fault f → step { s with cost := s.cost + k } = .fault f)

/-- 00_scope.md R5, 10_state.md R36, 20_memory.md R72 (two disjoint spaces are the spec's D17; log 13): no step changes
the construction parameters or the program store. -/
def Obligations.ParametersAndProgramNeverChange : Prop :=
  ∀ s t : State, step s = .next t → t.config = s.config ∧ t.prog = s.prog

/-- 10_state.md R26: only a HALT sets the run flag to false, and nothing sets it back to true. -/
def Obligations.OnlyHaltClearsTheRunFlag : Prop :=
  ∀ s t : State, step s = .next t →
    s.running = true ∧ (t.running = false ↔ FiniteMap.find s.prog s.pc = some (.instr .halt))

/-! ### The register file, the cache, Memory -/

/-- 10_state.md R31: `RegFetch`. The range check comes first; a hit returns the cached value and moves the entry to the
most-recently-used end; a miss returns the register's value and appends the entry, and evicts the least recently used
one if the capacity is exceeded (with capacity 0 the cache stays empty). Of N + 1 distinct fetches from an empty cache of
capacity N, the first is evicted. -/
def Obligations.RegFetchFollowsTheLruRule : Prop :=
  ∀ (s : State) (i : Nat),
    (s.nreg ≤ i → regFetch i s = .raised { s with fault := some ⟨.data, i⟩ }) ∧
      (∀ v, i < s.nreg → Cache.find s.cache i = some v →
        regFetch i s = .done v { s with cache := (s.cache.filter fun e => e.1 != i) ++ [(i, v)] }) ∧
      (i < s.nreg → Cache.find s.cache i = none →
        (s.cache.length < s.cacheCap →
          regFetch i s = .done (s.reg i) { s with cache := s.cache ++ [(i, s.reg i)] }) ∧
        (s.cacheCap ≤ s.cache.length →
          regFetch i s = .done (s.reg i) { s with cache := (s.cache ++ [(i, s.reg i)]).tail })) ∧
      (∀ rs : List Nat, s.cache = [] → rs.Nodup → (∀ r ∈ rs, r < s.nreg) → rs.length = s.cacheCap + 1 →
        (fetchAll rs s).cache = rs.tail.map fun r => (r, s.reg r))

/-- 10_state.md R32: `RegWrite`. The range check comes first; the register is written and every other one kept; a cached
copy is replaced at the same position; no entry is inserted, evicted or moved. -/
def Obligations.RegWriteUpdatesInPlace : Prop :=
  ∀ (s : State) (i : Nat) (v : Value),
    (s.nreg ≤ i → regWrite i v s = .raised { s with fault := some ⟨.data, i⟩ }) ∧
      (i < s.nreg → ∃ t, regWrite i v s = .done () t ∧ t.nreg = s.nreg ∧
        (∀ k, t.reg k = if k = i then v else s.reg k) ∧
        t.cache.map Prod.fst = s.cache.map Prod.fst ∧
        t.cache = (s.cache.map fun e => if e.1 = i then (i, v) else e) ∧
        t = { s with x := t.x, cache := t.cache })

/-- 10_state.md R34 (that a status index out of range raises `OperationError` is the spec's D12; log 8): status access is
bounds-checked and touches nothing else. -/
def Obligations.StatusAccessIsBoundsChecked : Prop :=
  ∀ (s : State) (j : Nat) (b : Bool),
    (s.nstat ≤ j → statusRead j s = .raised { s with fault := some ⟨.status, j⟩ } ∧
      statusWrite j b s = .raised { s with fault := some ⟨.status, j⟩ }) ∧
      (j < s.nstat → statusRead j s = .done (s.flag j) s ∧
        ∃ t, statusWrite j b s = .done () t ∧ t.nstat = s.nstat ∧
          (∀ k, t.flag k = if k = j then b else s.flag k) ∧ t = { s with status := t.status })

/-- 20_memory.md R61: a present cell reads its value, an absent one 0, and a read changes neither Memory nor the cache's
indices or their order: the only reading instruction, LOAD, leaves them as they were. -/
def Obligations.MemReadDefaultsToZeroAndChangesNothing : Prop :=
  (∀ (s : State) (addr : Addr) (v : Value), FiniteMap.find s.mem addr = some v → memRead addr s = v) ∧
    (∀ (s : State) (addr : Addr), FiniteMap.find s.mem addr = none → memRead addr s = 0) ∧
    (∀ (s t : State) (addr : Addr) (d : Nat), exec (.load addr d) s = .next t →
      t.mem = s.mem ∧ t.cache.map Prod.fst = s.cache.map Prod.fst)

/-- 40_execution_cycle.md R135: a literal resolves to its integer with no access; a register reference is fetched. With a
coherent cache (10_state.md R30) a source in range so resolves to its value (R33, the spec's own inference), only the cache
changes, by the rule of R31, and it stays coherent; a register reference out of range raises and changes only the fault
latch (the spec's D16; log 11). -/
def Obligations.ResolveReadsLiteralOrRegister : Prop :=
  (∀ (n : Value) (s : State), resolve (.lit n) s = .done n s) ∧
    (∀ (i : Nat) (s : State), resolve (.reg i) s = regFetch i s) ∧
    (∀ (o : Src) (s : State), Cache.Coherent s.cacheCap s.x s.cache → o.inRange s.nreg = true →
      resolve o s = .done (s.srcValue o) { s with cache := s.lruTouch s.cache o } ∧
        Cache.Coherent s.cacheCap s.x (s.lruTouch s.cache o)) ∧
    (∀ (o : Src) (s : State), o.inRange s.nreg = false →
      ∃ i, o = .reg i ∧ resolve o s = .raised { s with fault := some ⟨.data, i⟩ })

/-! ### Reset, loads and invariants -/

/-- 10_state.md R39, 70_reset_and_hazards.md R230 (the values of `pc`, `running`, `cost`, `cache`, the program store and
`fault` are the spec's D14 and D16, the sizes of `reset` are the model's choice; log 1, log 2): a constructed instance. -/
def Obligations.ConstructedInstanceHoldsTheResetValues : Prop :=
  (∀ c : Config, let s := State.construct c
    s.config = c ∧ (∀ i, s.reg i = 0) ∧ (∀ j, s.flag j = false) ∧
      (∀ a, FiniteMap.find s.mem a = none ∧ memRead a s = 0) ∧ (∀ a, FiniteMap.find s.prog a = none) ∧
      s.cache = [] ∧ s.pc = 0 ∧ s.running = true ∧ s.cost = 0 ∧ s.fault = none) ∧
    State.reset = State.construct ⟨16, 16, 4⟩

/-- 70_reset_and_hazards.md R231 (the order of application is the spec's D22; log 16): initial data sets data registers
only, the later entry for an index winning, and the first entry out of range fails the load. -/
def Obligations.InitialDataSetsRegistersInOrder : Prop :=
  ∀ s : State,
    (∀ entries : List (Nat × Value), s.cache = [] → (∀ e ∈ entries, e.1 < s.nreg) →
      ∃ t, s.loadInitialData entries = .ok t ∧ t = { s with x := t.x } ∧ t.nreg = s.nreg ∧
        ∀ k, t.reg k = (entries.reverse.lookup k).getD (s.reg k)) ∧
      (∀ (before : List (Nat × Value)) (bad : Nat × Value) (after : List (Nat × Value)),
        (∀ e ∈ before, e.1 < s.nreg) → s.nreg ≤ bad.1 →
          s.loadInitialData (before ++ bad :: after) = .error (.indexOutOfRange bad.1))

/-- 70_reset_and_hazards.md R231, R232 (that a wrong number of tokens fails the load, and a non-integer field before an index
out of range, are the spec's D22, D20; log 16; that the tokens are counted first and the index is checked before the value
is the model's own choice; log 25): the first initial-data line, whatever follows it. A line without exactly two tokens fails the load; then
an index that is not a bare integer; then a value that is not a signed integer; then an index out of range; any other line
sets its register and the load goes on. The line that spells an index and a value, of any size, sets that register to that
value. -/
def Obligations.InitialDataLineIsCheckedAndApplied : Prop :=
  ∀ (s : State) (text : Line) (rest : List Line),
    ((tokensOf text).length ≠ 2 → s.loadInitialLines (text :: rest) = .error .notTwoTokens) ∧
      (∀ index value, tokensOf text = [index, value] →
        (bareInteger index = none → s.loadInitialLines (text :: rest) = .error .indexNotInteger) ∧
        (∀ i, bareInteger index = some i →
          (signedInteger value = none → s.loadInitialLines (text :: rest) = .error .valueNotInteger) ∧
          (∀ v, signedInteger value = some v →
            (s.nreg ≤ i → s.loadInitialLines (text :: rest) = .error (.indexOutOfRange i)) ∧
            (i < s.nreg → ∃ t : State, s.loadInitialLines (text :: rest) = t.loadInitialLines rest ∧ t.nreg = s.nreg ∧
              (∀ k, t.reg k = if k = i then v else s.reg k) ∧ (s.cache = [] → t = { s with x := t.x }))))) ∧
      (∀ (i : Nat) (v : Value), text = decimal i ++ ' ' :: signedDecimal v → i < s.nreg →
        ∃ t, s.loadInitialLines [text] = .ok t ∧ t.nreg = s.nreg ∧ ∀ k, t.reg k = if k = i then v else s.reg k)

/-- 70_reset_and_hazards.md R233, 30_encoding.md R100 (the numbering from 0 is the spec's D13; log 9): entry k of the
loaded list, counted from 0, stands at instruction address k, and every other address is absent. -/
def Obligations.ProgramStandsFromAddressZero : Prop :=
  ∀ (s : State) (entries : List Entry) (a : Addr),
    FiniteMap.find (s.loadProgram entries).prog a = entries[a]? ∧
      s.loadProgram entries = { s with prog := (s.loadProgram entries).prog }

/-- 10_state.md R30, R39 (the model's invariant `State.Inv`): reset has it. -/
def Obligations.ResetHasTheInvariant : Prop := State.reset.Inv

/-- 10_state.md R30, 70_reset_and_hazards.md R231, R233 (the model's invariant `State.Inv`): a machine of any sizes, after
any initial data and any program, has it. -/
def Obligations.LoadedMachineHasTheInvariant : Prop :=
  ∀ (c : Config) (initial : List (Nat × Value)) (entries : List Entry) (s : State),
    (State.construct c).loadInitialData initial = .ok s → (s.loadProgram entries).Inv

/-- 10_state.md R30, 20_memory.md R60 (the model's invariant `State.Inv`): every step keeps the cache within its capacity,
its indices distinct and in range, its values those of the register file, and Memory and the program store in canonical
form. -/
def Obligations.EveryStepKeepsTheInvariant : Prop :=
  ∀ s t : State, s.Inv → step s = .next t → t.Inv

/-- 10_state.md R33 (the spec's own inference): in every reachable state, of a machine of any sizes with any initial data
and program, `RegFetch(i)` returns `x[i]` and changes the cache alone. -/
def Obligations.FetchReturnsTheRegisterInEveryReachableState : Prop :=
  ∀ (s : State) (i : Nat), Reachable s → i < s.nreg →
    ∃ t, regFetch i s = .done (s.reg i) t ∧ t = { s with cache := t.cache }

/-- 10_state.md R33, R40 (the spec's own inference): no program can observe the cache. Two machines that differ only in
their coherent caches and in the capacities step alike, and still differ only there. -/
def Obligations.NoProgramObservesTheCache : Prop :=
  ∀ s t : State, s.Inv → t.Inv → s.SameButCache t →
    (∀ s', step s = .next s' → ∃ t', step t = .next t' ∧ s'.SameButCache t') ∧
      (∀ f, step s = .fault f → step t = .fault f)

/-! ### What each instruction does -/

/-- 41_system.md R150 (NOP: pseudocode, flags, cost): NOP completes in every state and changes nothing; its step changes
only `pc`. -/
def Obligations.NopChangesNothing : Prop :=
  ∀ s : State, exec .nop s = .next s ∧
    (s.fault = none → s.running = true → FiniteMap.find s.prog s.pc = some (.instr .nop) →
      step s = .next { s with pc := s.pc + 1 })

/-- 41_system.md R151 (HALT: pseudocode, flags, cost): HALT completes in every state and changes only the run flag; its
step leaves `pc` at its address plus 1, and the state after it takes no step. -/
def Obligations.HaltStopsTheRun : Prop :=
  ∀ s : State, exec .halt s = .next { s with running := false } ∧
    (s.fault = none → s.running = true → FiniteMap.find s.prog s.pc = some (.instr .halt) →
      step s = .next { s with pc := s.pc + 1, running := false } ∧
        step { s with pc := s.pc + 1, running := false } = .fault .halted)

/-- 42_compare.md R160, R161 (CMP and CNE: pseudocode, flags, cost): with a coherent cache and indices in range, CMP writes
whether its sources are equal and CNE whether they differ; both sources are read through the cache, operand 1 first. -/
def Obligations.CompareWritesTheCondition : Prop :=
  ∀ (a b : Src) (d : Nat) (s : State), Cache.Coherent s.cacheCap s.x s.cache → a.inRange s.nreg = true →
    b.inRange s.nreg = true → d < s.nstat →
      exec (.cmp a b d) s = .next { s with
        status := s.status.set d (decide (s.srcValue a = s.srcValue b)),
        cache := s.lruTouchBoth a b, cost := s.cost + 4 } ∧
      exec (.cne a b d) s = .next { s with
        status := s.status.set d (!decide (s.srcValue a = s.srcValue b)),
        cache := s.lruTouchBoth a b, cost := s.cost + 4 }

/-- 43_arithmetic.md R170 to R174 (ADD, SUB, MULT: pseudocode, flags, cost; exactness is the spec's D1, SUB's direction its
D10; log 3, log 7): with a coherent cache and indices in range, the destination gets the exact sum, difference or product
of the sources' values as they were before the write, its cached copy is updated in place, and it is not inserted. -/
def Obligations.ArithmeticWritesTheExactResult : Prop :=
  ∀ (a b : Src) (d : Nat) (s : State), Cache.Coherent s.cacheCap s.x s.cache → a.inRange s.nreg = true →
    b.inRange s.nreg = true → d < s.nreg →
      (∃ t, exec (.add a b d) s = .next t ∧ (∀ k, t.reg k = if k = d then s.srcValue a + s.srcValue b else s.reg k) ∧
        t = { s with x := t.x, cost := s.cost + 4, cache := (s.lruTouchBoth a b).map fun e =>
          if e.1 = d then (d, s.srcValue a + s.srcValue b) else e }) ∧
      (∃ t, exec (.sub a b d) s = .next t ∧ (∀ k, t.reg k = if k = d then s.srcValue a - s.srcValue b else s.reg k) ∧
        t = { s with x := t.x, cost := s.cost + 4, cache := (s.lruTouchBoth a b).map fun e =>
          if e.1 = d then (d, s.srcValue a - s.srcValue b) else e }) ∧
      (∃ t, exec (.mult a b d) s = .next t ∧ (∀ k, t.reg k = if k = d then s.srcValue a * s.srcValue b else s.reg k) ∧
        t = { s with x := t.x, cost := s.cost + 4, cache := (s.lruTouchBoth a b).map fun e =>
          if e.1 = d then (d, s.srcValue a * s.srcValue b) else e })

/-- 44_load_store.md R180 (LOAD: pseudocode, flags, cost): with the destination in range, LOAD writes the cell's value, 0
for an absent cell, into the register, updates a cached copy in place, and touches no other entry. -/
def Obligations.LoadCopiesTheCell : Prop :=
  ∀ (addr : Addr) (d : Nat) (s : State), d < s.nreg →
    ∃ t, exec (.load addr d) s = .next t ∧
      (∀ k, t.reg k = if k = d then (FiniteMap.find s.mem addr).getD 0 else s.reg k) ∧
      t = { s with x := t.x, cost := s.cost + 2, cache := s.cache.map fun e =>
        if e.1 = d then (d, (FiniteMap.find s.mem addr).getD 0) else e }

/-- 44_load_store.md R181 (STORE: pseudocode, flags, cost; the operand order is the spec's D9; log 7): with a coherent
cache and the source in range, STORE binds the cell at the instruction's address, and no other cell, to the register's
value, also when that is 0; the register is read through the cache. -/
def Obligations.StoreBindsTheCell : Prop :=
  ∀ (r : Nat) (addr : Addr) (s : State), Cache.Coherent s.cacheCap s.x s.cache → r < s.nreg →
    ∃ t, exec (.store r addr) s = .next t ∧
      (∀ a, FiniteMap.find t.mem a = if a = addr then some (s.reg r) else FiniteMap.find s.mem a) ∧
      t = { s with mem := t.mem, cache := s.lruTouch s.cache (.reg r), cost := s.cost + 2 }

/-- 45_jump.md R190, R191 (JMP: pseudocode, flags, cost): the unconditional form completes in every state and sets `pc` to
the target; the conditional form, with its status index in range, sets `pc` to the target if the status register is true
and leaves it otherwise; the cost is 4 either way. -/
def Obligations.JumpSetsTheCounter : Prop :=
  (∀ (target : Addr) (s : State), exec (.jmpu target) s = .next { s with pc := target, cost := s.cost + 4 }) ∧
    (∀ (target : Addr) (j : Nat) (s : State), j < s.nstat →
      exec (.jmpc target j) s =
        .next { s with pc := if s.flag j = true then target else s.pc, cost := s.cost + 4 })

/-! ### Where instructions abort -/

/-- 42_compare.md R160, R161 and 43_arithmetic.md R170 to R172, exceptions (the order is the spec's D11; log 7): the five
three-operand instructions check operand 1, then operand 2, then the destination, and the cache effects of the fetches
completed before the raise stay. The destination of CMP and CNE is a status register. -/
def Obligations.ThreeOperandFormsRaiseInOrder : Prop :=
  ∀ (a b : Src) (d : Nat) (s : State) (op : Src → Src → Nat → Instr) (file : RegFile),
    Cache.Coherent s.cacheCap s.x s.cache →
    ((op = .add ∨ op = .sub ∨ op = .mult) ∧ file = .data ∨ (op = .cmp ∨ op = .cne) ∧ file = .status) →
      (∀ i, a = .reg i → s.nreg ≤ i → exec (op a b d) s = .next { s with fault := some ⟨.data, i⟩ }) ∧
      (∀ i, a.inRange s.nreg = true → b = .reg i → s.nreg ≤ i →
        exec (op a b d) s = .next { s with cache := s.lruTouch s.cache a, fault := some ⟨.data, i⟩ }) ∧
      (a.inRange s.nreg = true → b.inRange s.nreg = true → s.outside ⟨file, d⟩ = true →
        exec (op a b d) s = .next { s with cache := s.lruTouchBoth a b, fault := some ⟨file, d⟩ })

/-- 44_load_store.md R180, R181 and 45_jump.md R191, exceptions (the conditional JMP's bounds error is the spec's D12;
log 8): LOAD, STORE and the conditional JMP with an index out of range change nothing but the fault latch. -/
def Obligations.LoadStoreJumpRaiseWithoutEffect : Prop :=
  (∀ (addr : Addr) (d : Nat) (s : State), s.nreg ≤ d →
      exec (.load addr d) s = .next { s with fault := some ⟨.data, d⟩ }) ∧
    (∀ (r : Nat) (addr : Addr) (s : State), s.nreg ≤ r →
      exec (.store r addr) s = .next { s with fault := some ⟨.data, r⟩ }) ∧
    (∀ (target : Addr) (j : Nat) (s : State), s.nstat ≤ j →
      exec (.jmpc target j) s = .next { s with fault := some ⟨.status, j⟩ })

/-- 60_exceptions.md R203, R204, R207 item 4 (the spec's D11, D12, D15, D16; log 8, log 10, log 11): a step aborts exactly
when one of its instruction's register accesses is out of range, and the latch names the first such access. The aborted
state keeps every register, status register and cell, the run flag and the cost, has `pc` at the instruction's address
plus 1, and takes no step. -/
def Obligations.FirstIndexOutOfRangeAbortsTheRun : Prop :=
  ∀ (s t : State) (i : Instr), FiniteMap.find s.prog s.pc = some (.instr i) → step s = .next t →
    t.fault = (registerAccesses i).find? s.outside ∧
      ∀ e, t.fault = some e →
        t = { s with pc := s.pc + 1, cache := t.cache, fault := some e } ∧ step t = .fault (.aborted e)

/-- 60_exceptions.md R203, R205 (the spec's D12; log 8): a program all of whose register indices are in range never aborts,
however long it runs. -/
def Obligations.ProgramsInRangeNeverAbort : Prop :=
  ∀ s : State, s.fault = none →
    (∀ a i, FiniteMap.find s.prog a = some (.instr i) → i.inRange s.nreg s.nstat = true) → s.RunsSafely

/-! ### Frames: what each instruction leaves unchanged, whatever its operands -/

/-- 40_execution_cycle.md R141, rows NOP, HALT and JMP (the spec's own inference): NOP, HALT and both forms of JMP leave
the data registers, the status registers, the cache, all of Memory and the program store unchanged; only HALT changes the
run flag, only JMP the program counter and the cost, and only the conditional JMP the fault latch. -/
def Obligations.ControlFrame : Prop :=
  ∀ (i : Instr) (s t : State), i = .nop ∨ i = .halt ∨ (∃ target, i = .jmpu target) ∨ (∃ target j, i = .jmpc target j) →
    exec i s = .next t →
      t.x = s.x ∧ t.status = s.status ∧ t.cache = s.cache ∧ t.prog = s.prog ∧ t.cacheCap = s.cacheCap ∧
      (∀ addr, FiniteMap.find t.mem addr = FiniteMap.find s.mem addr ∧ memRead addr t = memRead addr s) ∧
      (i ≠ .halt → t.running = s.running) ∧
      (i = .nop ∨ i = .halt → t.pc = s.pc ∧ t.cost = s.cost) ∧
      ((∀ target j, i ≠ .jmpc target j) → t.fault = s.fault)

/-- 40_execution_cycle.md R141, row CMP, CNE (the spec's own inference): CMP and CNE leave every data register, every
status register but the destination, all of Memory, the program store, the run flag and the program counter unchanged; the
cache may change, and either the cost or the fault latch. -/
def Obligations.CompareFrame : Prop :=
  ∀ (a b : Src) (d : Nat) (s t : State), exec (.cmp a b d) s = .next t ∨ exec (.cne a b d) s = .next t →
    t.x = s.x ∧ (∀ k, k ≠ d → t.flag k = s.flag k) ∧ t.nstat = s.nstat ∧ t.pc = s.pc ∧ t.running = s.running ∧
    t.prog = s.prog ∧ t.cacheCap = s.cacheCap ∧
    (∀ addr, FiniteMap.find t.mem addr = FiniteMap.find s.mem addr ∧ memRead addr t = memRead addr s) ∧
    (t.fault = s.fault ∧ t.cost = s.cost + 4 ∨ t.fault ≠ none ∧ t.cost = s.cost ∧ t.status = s.status)

/-- 40_execution_cycle.md R141, row ADD, SUB, MULT (the spec's own inference): ADD, SUB and MULT leave every data register
but the destination, every status register, all of Memory, the program store, the run flag and the program counter
unchanged; the cache may change, and either the cost or the fault latch. -/
def Obligations.ArithmeticFrame : Prop :=
  ∀ (a b : Src) (d : Nat) (s t : State),
    exec (.add a b d) s = .next t ∨ exec (.sub a b d) s = .next t ∨ exec (.mult a b d) s = .next t →
      (∀ k, k ≠ d → t.reg k = s.reg k) ∧ t.nreg = s.nreg ∧ t.status = s.status ∧ t.pc = s.pc ∧
      t.running = s.running ∧ t.prog = s.prog ∧ t.cacheCap = s.cacheCap ∧
      (∀ addr, FiniteMap.find t.mem addr = FiniteMap.find s.mem addr ∧ memRead addr t = memRead addr s) ∧
      (t.fault = s.fault ∧ t.cost = s.cost + 4 ∨ t.fault ≠ none ∧ t.cost = s.cost ∧ t.x = s.x)

/-- 40_execution_cycle.md R141, row LOAD (the spec's own inference): LOAD leaves every data register but the destination,
every status register, all of Memory, the program store, the run flag, the program counter, and the cache but for the
destination's cached value unchanged; it changes either the cost or the fault latch. -/
def Obligations.LoadFrame : Prop :=
  ∀ (addr : Addr) (d : Nat) (s t : State), exec (.load addr d) s = .next t →
    (∀ k, k ≠ d → t.reg k = s.reg k) ∧ t.nreg = s.nreg ∧ t.status = s.status ∧ t.pc = s.pc ∧
    t.running = s.running ∧ t.prog = s.prog ∧ t.cacheCap = s.cacheCap ∧
    (∀ a, FiniteMap.find t.mem a = FiniteMap.find s.mem a ∧ memRead a t = memRead a s) ∧
    t.cache.map Prod.fst = s.cache.map Prod.fst ∧ (∀ k, k ≠ d → Cache.find t.cache k = Cache.find s.cache k) ∧
    (t.fault = s.fault ∧ t.cost = s.cost + 2 ∨
      t.fault ≠ none ∧ t.cost = s.cost ∧ t.x = s.x ∧ t.cache = s.cache)

/-- 40_execution_cycle.md R141, row STORE (the spec's own inference): STORE leaves every data register, every status
register, every cell but the one at the instruction's address, the program store, the run flag and the program counter
unchanged; the cache may change, and either the cost or the fault latch; a STORE that aborts changes no cell. -/
def Obligations.StoreFrame : Prop :=
  ∀ (r : Nat) (addr : Addr) (s t : State), exec (.store r addr) s = .next t →
    t.x = s.x ∧ t.status = s.status ∧ t.pc = s.pc ∧ t.running = s.running ∧ t.prog = s.prog ∧
    t.cacheCap = s.cacheCap ∧
    (∀ a, a ≠ addr → FiniteMap.find t.mem a = FiniteMap.find s.mem a ∧ memRead a t = memRead a s) ∧
    (t.fault = s.fault ∧ t.cost = s.cost + 2 ∨
      t.fault ≠ none ∧ t.cost = s.cost ∧ t.mem = s.mem ∧ t.cache = s.cache)

/-! ### Runs and the host interface -/

/-- 70_reset_and_hazards.md R235: a run repeats the step until the state is terminal. If it ends normally the caller gets
the snapshot of the final state, if it aborts the error, and while it has not ended nothing. -/
def Obligations.RunReturnsTheSnapshotOrTheError : Prop :=
  ∀ (s t : State) (n : Nat), Host.Core.run Sys2Proof.core n s = .next t →
    (t.terminal? = none → runFor n s = .unfinished t ∧ (runFor n s).toCaller = none) ∧
      (∀ f, t.terminal? = some f → ∀ k, runFor (n + k) s = .ended f t) ∧
      (t.terminal? = some .halted ∨ t.terminal? = some .ranOffEnd →
        ∀ k, (runFor (n + k) s).toCaller = some (.ok ⟨t.x, t.status, t.mem, t.cache, t.pc, t.cost⟩)) ∧
      (∀ e, t.terminal? = some (.aborted e) → ∀ k, (runFor (n + k) s).toCaller = some (.error e))

/-- 70_reset_and_hazards.md R231, R237, 30_encoding.md R97 (the spec's D22, D23; log 17): after its run an instance accepts
no load and no second run; after a program load of either form, lines or entries, it accepts no second one of either form;
a failed program load leaves the machine as it was; and after a failed load of either kind an instance accepts nothing. -/
def Obligations.OneLoadAndOneRunPerInstance : Prop :=
  (∀ (i : Instance) (fuel : Nat) r, i.run fuel = .performed r →
    (∀ lines, r.2.2.loadInitialLines lines = .refused .loadAfterRun) ∧
      (∀ m mark f lines, r.2.2.loadLines m mark f lines = .refused .loadAfterRun) ∧
      (∀ entries, r.2.2.loadEntries entries = .refused .loadAfterRun) ∧
      (∀ n, r.2.2.run n = .refused .secondRun)) ∧
    (∀ (i i' : Instance) m mark f lines, i.loadLines m mark f lines = .performed i' →
      (∀ m mark f lines, i'.loadLines m mark f lines = .refused .secondProgram) ∧
      (∀ entries, i'.loadEntries entries = .refused .secondProgram)) ∧
    (∀ (i i' : Instance) entries, i.loadEntries entries = .performed i' →
      (∀ m mark f lines, i'.loadLines m mark f lines = .refused .secondProgram) ∧
      (∀ entries, i'.loadEntries entries = .refused .secondProgram)) ∧
    (∀ (i i' : Instance) m mark f lines e, i.loadLines m mark f lines = .failed e i' →
      i'.machine = i.machine ∧ (∀ lines, i'.loadInitialLines lines = .refused .afterLoadError) ∧
      (∀ m mark f lines, i'.loadLines m mark f lines = .refused .afterLoadError) ∧
      (∀ entries, i'.loadEntries entries = .refused .afterLoadError) ∧
      (∀ n, i'.run n = .refused .afterLoadError)) ∧
    (∀ (i i' : Instance) lines e, i.loadInitialLines lines = .failed e i' →
      (∀ lines, i'.loadInitialLines lines = .refused .afterLoadError) ∧
      (∀ m mark f lines, i'.loadLines m mark f lines = .refused .afterLoadError) ∧
      (∀ entries, i'.loadEntries entries = .refused .afterLoadError) ∧
      (∀ n, i'.run n = .refused .afterLoadError))
end

