-- ==== Sys2Proof/Laws/Cache.lean ====
section
/-! SUPPORT. The laws of the cache: what it looks up, and that a hit, a miss and a write keep it coherent
(10_state.md R30 to R33). -/

namespace Sys2Proof.Machine

variable {c : Cache} {i : Nat} {v : Value} {cap : Nat} {x : List Value}

@[simp] theorem Cache.find_cons (k : Nat) (w : Value) (c : Cache) (i : Nat) :
    Cache.find ((k, w) :: c) i = if i = k then some w else Cache.find c i := rfl

/-- A value the cache finds is the value of an entry. -/
theorem Cache.mem_of_find (h : Cache.find c i = some v) : (i, v) ∈ c := by
  induction c with
  | nil => cases h
  | cons e c ih =>
    obtain ⟨k, w⟩ := e
    rw [Cache.find_cons] at h
    split at h
    · rename_i hk; cases h; subst hk; exact List.mem_cons_self
    · exact List.mem_cons_of_mem _ (ih h)

/-- A register the cache does not find has no entry. -/
theorem Cache.not_mem_of_find_none (h : Cache.find c i = none) : i ∉ c.map Prod.fst := by
  induction c with
  | nil => simp
  | cons e c ih =>
    obtain ⟨k, w⟩ := e
    rw [Cache.find_cons] at h
    split at h
    · cases h
    · rename_i hk; simpa [hk] using ih h

/-- A coherent cache finds only the register's own value. -/
theorem Cache.Coherent.of_find (hc : Cache.Coherent cap x c) (h : Cache.find c i = some v) : x[i]? = some v :=
  hc.coherent (i, v) (Cache.mem_of_find h)

/-- The empty cache is coherent. -/
theorem Cache.Coherent.nil : Cache.Coherent cap x [] := ⟨Nat.zero_le _, List.nodup_nil, by simp⟩

/-- A hit keeps the cache coherent. -/
theorem Cache.Coherent.promote (hc : Cache.Coherent cap x c) (h : Cache.find c i = some v) :
    Cache.Coherent cap x (Cache.promote c i v) := by
  have hmem := Cache.mem_of_find h
  refine ⟨?_, ?_, ?_⟩
  · have hlt : (Cache.remove c i).length < c.length :=
      List.length_filter_lt_length_iff_exists.mpr ⟨(i, v), hmem, by simp⟩
    have := hc.capacity
    simp only [Cache.promote, List.length_append, List.length_singleton]
    omega
  · have hsub : ((Cache.remove c i).map Prod.fst).Nodup := hc.distinct.sublist (List.filter_sublist.map _)
    simp only [Cache.promote, List.map_append, List.map_cons, List.map_nil]
    refine List.nodup_append'.mpr ⟨hsub, List.nodup_singleton _, ?_⟩
    simp [Cache.remove]
  · intro e he
    simp only [Cache.promote, Cache.remove, List.mem_append, List.mem_filter, List.mem_singleton] at he
    rcases he with ⟨he, -⟩ | rfl
    · exact hc.coherent e he
    · exact hc.coherent _ hmem

/-- A miss keeps the cache coherent, whether or not it evicts. -/
theorem Cache.Coherent.insert (hc : Cache.Coherent cap x c) (h : Cache.find c i = none) (hx : x[i]? = some v) :
    Cache.Coherent cap x (Cache.insert cap c i v) := by
  have hnodup : ((c ++ [(i, v)]).map Prod.fst).Nodup := by
    rw [List.map_append]
    exact List.nodup_append'.mpr ⟨hc.distinct, List.nodup_singleton _,
      by simpa using Cache.not_mem_of_find_none h⟩
  have hcoh : ∀ e ∈ c ++ [(i, v)], x[e.1]? = some e.2 := by
    intro e he
    rcases List.mem_append.mp he with he | he
    · exact hc.coherent e he
    · rw [List.mem_singleton.mp he]; exact hx
  have hcap := hc.capacity
  unfold Cache.insert
  split
  · refine ⟨?_, hnodup.sublist ((List.tail_sublist _).map _), fun e he => hcoh e (List.mem_of_mem_tail he)⟩
    simp only [List.length_tail, List.length_append, List.length_singleton]
    omega
  · exact ⟨by omega, hnodup, hcoh⟩

/-- A write changes no index of the cache and no order. -/
@[simp] theorem Cache.map_fst_update (c : Cache) (i : Nat) (v : Value) :
    (Cache.update c i v).map Prod.fst = c.map Prod.fst := by
  simp only [Cache.update, List.map_map]
  refine List.map_congr_left fun e _ => ?_
  simp only [Function.comp_apply]
  split
  · rename_i h; exact h.symm
  · rfl

/-- A write keeps the cache coherent with the register file it has written. -/
theorem Cache.Coherent.update (hc : Cache.Coherent cap x c) (hi : i < x.length) :
    Cache.Coherent cap (x.set i v) (Cache.update c i v) := by
  refine ⟨by simpa [Cache.update] using hc.capacity, by simpa using hc.distinct, ?_⟩
  intro e he
  simp only [Cache.update, List.mem_map] at he
  obtain ⟨e', he', rfl⟩ := he
  split
  · simp [hi]
  · rename_i hne
    rw [List.getElem?_set_ne (Ne.symm hne)]
    exact hc.coherent e' he'

end Sys2Proof.Machine
end

