-- ==== Sys2Proof/Laws/FiniteMap.lean ====
section
/-! SUPPORT. The laws of finite maps in canonical form: reading after binding, the canonical form kept, equal maps equal
lists. -/

namespace Sys2Proof.Machine

variable {α : Type}

@[simp] theorem FiniteMap.find_nil (a : Nat) : FiniteMap.find ([] : FiniteMap α) a = none := rfl

@[simp] theorem FiniteMap.find_cons (k : Nat) (v : α) (m : FiniteMap α) (a : Nat) :
    FiniteMap.find ((k, v) :: m) a = if a = k then some v else FiniteMap.find m a := rfl

/-- Reading a key after binding a key, the same or another. -/
theorem FiniteMap.find_bind (m : FiniteMap α) (a : Nat) (v : α) (b : Nat) :
    FiniteMap.find (FiniteMap.bind m a v) b = if b = a then some v else FiniteMap.find m b := by
  induction m with
  | nil => simp [FiniteMap.bind]
  | cons e m ih =>
    obtain ⟨k, w⟩ := e
    simp only [FiniteMap.bind]
    split
    · simp
    · split
      · rename_i hk; subst hk
        by_cases hb : b = a <;> simp [hb]
      · simp only [FiniteMap.find_cons, ih]
        split
        · rename_i hne hbk
          rw [if_neg]; rw [hbk]; exact fun hk => hne hk.symm
        · rfl

@[simp] theorem FiniteMap.find_bind_same (m : FiniteMap α) (a : Nat) (v : α) :
    FiniteMap.find (FiniteMap.bind m a v) a = some v := by simp [FiniteMap.find_bind]

theorem FiniteMap.find_bind_other (m : FiniteMap α) {a b : Nat} (v : α) (h : b ≠ a) :
    FiniteMap.find (FiniteMap.bind m a v) b = FiniteMap.find m b := by simp [FiniteMap.find_bind, h]

/-- The keys of a map after a binding are its keys before and the bound one. -/
theorem FiniteMap.mem_keys_bind (m : FiniteMap α) (a : Nat) (v : α) (k : Nat) :
    k ∈ (FiniteMap.bind m a v).map Prod.fst → k = a ∨ k ∈ m.map Prod.fst := by
  induction m with
  | nil => simp [FiniteMap.bind]
  | cons e m ih =>
    obtain ⟨j, w⟩ := e
    simp only [FiniteMap.bind]
    split
    · simp
    · split
      · rename_i h; subst h
        intro hk; simpa using hk
      · intro hk
        simp only [List.map_cons, List.mem_cons] at hk ⊢
        rcases hk with hk | hk
        · exact .inr (.inl hk)
        · exact (ih hk).imp id .inr

/-- A binding keeps the canonical form. -/
theorem FiniteMap.wf_bind {m : FiniteMap α} (h : FiniteMap.wf m) (a : Nat) (v : α) :
    FiniteMap.wf (FiniteMap.bind m a v) := by
  induction m with
  | nil => simp [FiniteMap.wf, FiniteMap.bind]
  | cons e m ih =>
    obtain ⟨k, w⟩ := e
    simp only [FiniteMap.wf, List.map_cons, List.pairwise_cons] at h ih
    obtain ⟨hk, hm⟩ := h
    simp only [FiniteMap.bind]
    split
    · rename_i hak
      simp only [FiniteMap.wf, List.map_cons, List.pairwise_cons, List.mem_cons, forall_eq_or_imp]
      exact ⟨⟨hak, fun b hb => hak.trans (hk b hb)⟩, hk, hm⟩
    · split
      · rename_i hak; subst hak
        simpa only [FiniteMap.wf, List.map_cons, List.pairwise_cons] using ⟨hk, hm⟩
      · rename_i hlt hne
        simp only [FiniteMap.wf, List.map_cons, List.pairwise_cons]
        refine ⟨fun b hb => ?_, ih hm⟩
        rcases FiniteMap.mem_keys_bind m a v b hb with rfl | hb
        · omega
        · exact hk b hb

/-- The map of a list looks up the list. -/
theorem FiniteMap.find_ofList (n : Nat) (vs : List α) (a : Nat) :
    FiniteMap.find (FiniteMap.ofList n vs) a = if a < n then none else vs[a - n]? := by
  induction vs generalizing n with
  | nil => simp [FiniteMap.ofList]
  | cons v vs ih =>
    simp only [FiniteMap.ofList, FiniteMap.find_cons, ih]
    rcases Nat.lt_trichotomy a n with h | h | h
    · rw [if_neg (by omega), if_pos (by omega), if_pos h]
    · subst h; simp
    · rw [if_neg (by omega), if_neg (by omega), if_neg (by omega), show a - n = (a - (n + 1)) + 1 by omega]
      simp

theorem FiniteMap.le_of_mem_keys_ofList (n : Nat) (vs : List α) (k : Nat) :
    k ∈ (FiniteMap.ofList n vs).map Prod.fst → n ≤ k := by
  induction vs generalizing n with
  | nil => simp [FiniteMap.ofList]
  | cons v vs ih =>
    simp only [FiniteMap.ofList, List.map_cons, List.mem_cons]
    rintro (rfl | h)
    · exact le_rfl
    · exact (Nat.le_succ n).trans (ih (n + 1) h)

/-- The map of a list is in canonical form. -/
theorem FiniteMap.wf_ofList (n : Nat) (vs : List α) : FiniteMap.wf (FiniteMap.ofList n vs) := by
  induction vs generalizing n with
  | nil => simp [FiniteMap.wf, FiniteMap.ofList]
  | cons v vs ih =>
    simp only [FiniteMap.wf, FiniteMap.ofList, List.map_cons, List.pairwise_cons]
    exact ⟨fun k hk => FiniteMap.le_of_mem_keys_ofList (n + 1) vs k hk, ih (n + 1)⟩

/-- A key below every listed key is absent. -/
theorem FiniteMap.find_eq_none_of_lt {m : FiniteMap α} {a : Nat} (h : ∀ k ∈ m.map Prod.fst, a < k) :
    FiniteMap.find m a = none := by
  induction m with
  | nil => rfl
  | cons e m ih =>
    obtain ⟨k, v⟩ := e
    simp only [List.map_cons, List.mem_cons, forall_eq_or_imp] at h
    rw [FiniteMap.find_cons, if_neg (Nat.ne_of_lt h.1), ih h.2]

/-- Two maps in canonical form that look up alike are the same list. -/
theorem FiniteMap.ext {m m' : FiniteMap α} (h : FiniteMap.wf m) (h' : FiniteMap.wf m')
    (heq : ∀ a, FiniteMap.find m a = FiniteMap.find m' a) : m = m' := by
  induction m generalizing m' with
  | nil =>
    cases m' with
    | nil => rfl
    | cons e m' =>
      have := heq e.1
      rw [FiniteMap.find_nil, show e = (e.1, e.2) from rfl, FiniteMap.find_cons, if_pos rfl] at this
      cases this
  | cons e m ih =>
    obtain ⟨k, v⟩ := e
    simp only [FiniteMap.wf, List.map_cons, List.pairwise_cons] at h
    cases m' with
    | nil => simpa using heq k
    | cons e' m' =>
      obtain ⟨k', v'⟩ := e'
      simp only [FiniteMap.wf, List.map_cons, List.pairwise_cons] at h'
      have hkk : k = k' := by
        rcases Nat.lt_trichotomy k k' with hlt | heqk | hgt
        · have := heq k
          rw [FiniteMap.find_cons, if_pos rfl, FiniteMap.find_cons, if_neg (by omega),
            FiniteMap.find_eq_none_of_lt fun j hj => hlt.trans (h'.1 j hj)] at this
          cases this
        · exact heqk
        · have := heq k'
          rw [FiniteMap.find_cons, if_neg (by omega), FiniteMap.find_cons, if_pos rfl,
            FiniteMap.find_eq_none_of_lt fun j hj => hgt.trans (h.1 j hj)] at this
          cases this
      subst hkk
      have hv := heq k
      simp only [FiniteMap.find_cons, if_pos] at hv
      cases hv
      rw [ih h.2 h'.2]
      intro a
      by_cases ha : a = k
      · subst ha
        rw [FiniteMap.find_eq_none_of_lt h.1, FiniteMap.find_eq_none_of_lt h'.1]
      · simpa [ha] using heq a

end Sys2Proof.Machine
end

