-- ==== Sys2Proof/Laws/State.lean ====
section
/-! SUPPORT. One lemma per field of State for every update of it, and what the views of the state become. -/

namespace Sys2Proof.Machine

variable (s : State)

/-! ### `setPc` -/

@[simp] theorem State.setPc_x (target : Addr) : (s.setPc target).x = s.x := rfl
@[simp] theorem State.setPc_status (target : Addr) : (s.setPc target).status = s.status := rfl
@[simp] theorem State.setPc_pc (target : Addr) : (s.setPc target).pc = target := rfl
@[simp] theorem State.setPc_running (target : Addr) : (s.setPc target).running = s.running := rfl
@[simp] theorem State.setPc_cost (target : Addr) : (s.setPc target).cost = s.cost := rfl
@[simp] theorem State.setPc_fault (target : Addr) : (s.setPc target).fault = s.fault := rfl
@[simp] theorem State.setPc_cache (target : Addr) : (s.setPc target).cache = s.cache := rfl
@[simp] theorem State.setPc_mem (target : Addr) : (s.setPc target).mem = s.mem := rfl
@[simp] theorem State.setPc_prog (target : Addr) : (s.setPc target).prog = s.prog := rfl
@[simp] theorem State.setPc_cacheCap (target : Addr) : (s.setPc target).cacheCap = s.cacheCap := rfl

/-! ### `advance` -/

@[simp] theorem State.advance_x : (s.advance).x = s.x := rfl
@[simp] theorem State.advance_status : (s.advance).status = s.status := rfl
@[simp] theorem State.advance_pc : (s.advance).pc = s.pc + 1 := rfl
@[simp] theorem State.advance_running : (s.advance).running = s.running := rfl
@[simp] theorem State.advance_cost : (s.advance).cost = s.cost := rfl
@[simp] theorem State.advance_fault : (s.advance).fault = s.fault := rfl
@[simp] theorem State.advance_cache : (s.advance).cache = s.cache := rfl
@[simp] theorem State.advance_mem : (s.advance).mem = s.mem := rfl
@[simp] theorem State.advance_prog : (s.advance).prog = s.prog := rfl
@[simp] theorem State.advance_cacheCap : (s.advance).cacheCap = s.cacheCap := rfl

/-! ### `stopRun` -/

@[simp] theorem State.stopRun_x : (s.stopRun).x = s.x := rfl
@[simp] theorem State.stopRun_status : (s.stopRun).status = s.status := rfl
@[simp] theorem State.stopRun_pc : (s.stopRun).pc = s.pc := rfl
@[simp] theorem State.stopRun_running : (s.stopRun).running = false := rfl
@[simp] theorem State.stopRun_cost : (s.stopRun).cost = s.cost := rfl
@[simp] theorem State.stopRun_fault : (s.stopRun).fault = s.fault := rfl
@[simp] theorem State.stopRun_cache : (s.stopRun).cache = s.cache := rfl
@[simp] theorem State.stopRun_mem : (s.stopRun).mem = s.mem := rfl
@[simp] theorem State.stopRun_prog : (s.stopRun).prog = s.prog := rfl
@[simp] theorem State.stopRun_cacheCap : (s.stopRun).cacheCap = s.cacheCap := rfl

/-! ### `addCost` -/

@[simp] theorem State.addCost_x (n : Nat) : (s.addCost n).x = s.x := rfl
@[simp] theorem State.addCost_status (n : Nat) : (s.addCost n).status = s.status := rfl
@[simp] theorem State.addCost_pc (n : Nat) : (s.addCost n).pc = s.pc := rfl
@[simp] theorem State.addCost_running (n : Nat) : (s.addCost n).running = s.running := rfl
@[simp] theorem State.addCost_cost (n : Nat) : (s.addCost n).cost = s.cost + n := rfl
@[simp] theorem State.addCost_fault (n : Nat) : (s.addCost n).fault = s.fault := rfl
@[simp] theorem State.addCost_cache (n : Nat) : (s.addCost n).cache = s.cache := rfl
@[simp] theorem State.addCost_mem (n : Nat) : (s.addCost n).mem = s.mem := rfl
@[simp] theorem State.addCost_prog (n : Nat) : (s.addCost n).prog = s.prog := rfl
@[simp] theorem State.addCost_cacheCap (n : Nat) : (s.addCost n).cacheCap = s.cacheCap := rfl

/-! ### `setCache` -/

@[simp] theorem State.setCache_x (c : Cache) : (s.setCache c).x = s.x := rfl
@[simp] theorem State.setCache_status (c : Cache) : (s.setCache c).status = s.status := rfl
@[simp] theorem State.setCache_pc (c : Cache) : (s.setCache c).pc = s.pc := rfl
@[simp] theorem State.setCache_running (c : Cache) : (s.setCache c).running = s.running := rfl
@[simp] theorem State.setCache_cost (c : Cache) : (s.setCache c).cost = s.cost := rfl
@[simp] theorem State.setCache_fault (c : Cache) : (s.setCache c).fault = s.fault := rfl
@[simp] theorem State.setCache_cache (c : Cache) : (s.setCache c).cache = c := rfl
@[simp] theorem State.setCache_mem (c : Cache) : (s.setCache c).mem = s.mem := rfl
@[simp] theorem State.setCache_prog (c : Cache) : (s.setCache c).prog = s.prog := rfl
@[simp] theorem State.setCache_cacheCap (c : Cache) : (s.setCache c).cacheCap = s.cacheCap := rfl

/-! ### `setFlag` -/

@[simp] theorem State.setFlag_x (j : Nat) (b : Bool) : (s.setFlag j b).x = s.x := rfl
@[simp] theorem State.setFlag_status (j : Nat) (b : Bool) : (s.setFlag j b).status = s.status.set j b := rfl
@[simp] theorem State.setFlag_pc (j : Nat) (b : Bool) : (s.setFlag j b).pc = s.pc := rfl
@[simp] theorem State.setFlag_running (j : Nat) (b : Bool) : (s.setFlag j b).running = s.running := rfl
@[simp] theorem State.setFlag_cost (j : Nat) (b : Bool) : (s.setFlag j b).cost = s.cost := rfl
@[simp] theorem State.setFlag_fault (j : Nat) (b : Bool) : (s.setFlag j b).fault = s.fault := rfl
@[simp] theorem State.setFlag_cache (j : Nat) (b : Bool) : (s.setFlag j b).cache = s.cache := rfl
@[simp] theorem State.setFlag_mem (j : Nat) (b : Bool) : (s.setFlag j b).mem = s.mem := rfl
@[simp] theorem State.setFlag_prog (j : Nat) (b : Bool) : (s.setFlag j b).prog = s.prog := rfl
@[simp] theorem State.setFlag_cacheCap (j : Nat) (b : Bool) : (s.setFlag j b).cacheCap = s.cacheCap := rfl

/-! ### `raise` -/

@[simp] theorem State.raise_x (e : OperationError) : (s.raise e).x = s.x := rfl
@[simp] theorem State.raise_status (e : OperationError) : (s.raise e).status = s.status := rfl
@[simp] theorem State.raise_pc (e : OperationError) : (s.raise e).pc = s.pc := rfl
@[simp] theorem State.raise_running (e : OperationError) : (s.raise e).running = s.running := rfl
@[simp] theorem State.raise_cost (e : OperationError) : (s.raise e).cost = s.cost := rfl
@[simp] theorem State.raise_fault (e : OperationError) : (s.raise e).fault = some e := rfl
@[simp] theorem State.raise_cache (e : OperationError) : (s.raise e).cache = s.cache := rfl
@[simp] theorem State.raise_mem (e : OperationError) : (s.raise e).mem = s.mem := rfl
@[simp] theorem State.raise_prog (e : OperationError) : (s.raise e).prog = s.prog := rfl
@[simp] theorem State.raise_cacheCap (e : OperationError) : (s.raise e).cacheCap = s.cacheCap := rfl

/-! ### `setReg` -/

@[simp] theorem State.setReg_x (i : Nat) (v : Value) : (s.setReg i v).x = s.x.set i v := rfl
@[simp] theorem State.setReg_status (i : Nat) (v : Value) : (s.setReg i v).status = s.status := rfl
@[simp] theorem State.setReg_pc (i : Nat) (v : Value) : (s.setReg i v).pc = s.pc := rfl
@[simp] theorem State.setReg_running (i : Nat) (v : Value) : (s.setReg i v).running = s.running := rfl
@[simp] theorem State.setReg_cost (i : Nat) (v : Value) : (s.setReg i v).cost = s.cost := rfl
@[simp] theorem State.setReg_fault (i : Nat) (v : Value) : (s.setReg i v).fault = s.fault := rfl
@[simp] theorem State.setReg_cache (i : Nat) (v : Value) : (s.setReg i v).cache = Cache.update s.cache i v := rfl
@[simp] theorem State.setReg_mem (i : Nat) (v : Value) : (s.setReg i v).mem = s.mem := rfl
@[simp] theorem State.setReg_prog (i : Nat) (v : Value) : (s.setReg i v).prog = s.prog := rfl
@[simp] theorem State.setReg_cacheCap (i : Nat) (v : Value) : (s.setReg i v).cacheCap = s.cacheCap := rfl

/-! ### `loadProgram` -/

@[simp] theorem State.loadProgram_x (entries : List Entry) : (s.loadProgram entries).x = s.x := rfl
@[simp] theorem State.loadProgram_status (entries : List Entry) : (s.loadProgram entries).status = s.status := rfl
@[simp] theorem State.loadProgram_pc (entries : List Entry) : (s.loadProgram entries).pc = s.pc := rfl
@[simp] theorem State.loadProgram_running (entries : List Entry) : (s.loadProgram entries).running = s.running := rfl
@[simp] theorem State.loadProgram_cost (entries : List Entry) : (s.loadProgram entries).cost = s.cost := rfl
@[simp] theorem State.loadProgram_fault (entries : List Entry) : (s.loadProgram entries).fault = s.fault := rfl
@[simp] theorem State.loadProgram_cache (entries : List Entry) : (s.loadProgram entries).cache = s.cache := rfl
@[simp] theorem State.loadProgram_mem (entries : List Entry) : (s.loadProgram entries).mem = s.mem := rfl
@[simp] theorem State.loadProgram_prog (entries : List Entry) : (s.loadProgram entries).prog = FiniteMap.ofList 0 entries := rfl
@[simp] theorem State.loadProgram_cacheCap (entries : List Entry) : (s.loadProgram entries).cacheCap = s.cacheCap := rfl

/-! ### `memWrite` -/

@[simp] theorem memWrite_x (a : Addr) (v : Value) : (memWrite a v s).x = s.x := rfl
@[simp] theorem memWrite_status (a : Addr) (v : Value) : (memWrite a v s).status = s.status := rfl
@[simp] theorem memWrite_pc (a : Addr) (v : Value) : (memWrite a v s).pc = s.pc := rfl
@[simp] theorem memWrite_running (a : Addr) (v : Value) : (memWrite a v s).running = s.running := rfl
@[simp] theorem memWrite_cost (a : Addr) (v : Value) : (memWrite a v s).cost = s.cost := rfl
@[simp] theorem memWrite_fault (a : Addr) (v : Value) : (memWrite a v s).fault = s.fault := rfl
@[simp] theorem memWrite_cache (a : Addr) (v : Value) : (memWrite a v s).cache = s.cache := rfl
@[simp] theorem memWrite_mem (a : Addr) (v : Value) : (memWrite a v s).mem = FiniteMap.bind s.mem a v := rfl
@[simp] theorem memWrite_prog (a : Addr) (v : Value) : (memWrite a v s).prog = s.prog := rfl
@[simp] theorem memWrite_cacheCap (a : Addr) (v : Value) : (memWrite a v s).cacheCap = s.cacheCap := rfl

/-! ### The views `nreg`, `nstat`, `reg`, `flag` and `memRead` under each update -/

@[simp] theorem State.setPc_nreg (target : Addr) : (s.setPc target).nreg = s.nreg := rfl
@[simp] theorem State.setPc_reg (target : Addr) (k : Nat) : (s.setPc target).reg k = s.reg k := rfl
@[simp] theorem State.setPc_nstat (target : Addr) : (s.setPc target).nstat = s.nstat := rfl
@[simp] theorem State.setPc_flag (target : Addr) (k : Nat) : (s.setPc target).flag k = s.flag k := rfl
@[simp] theorem State.setPc_memRead (target : Addr) (a : Addr) : memRead a (s.setPc target) = memRead a s := rfl
@[simp] theorem State.advance_nreg : (s.advance).nreg = s.nreg := rfl
@[simp] theorem State.advance_reg (k : Nat) : (s.advance).reg k = s.reg k := rfl
@[simp] theorem State.advance_nstat : (s.advance).nstat = s.nstat := rfl
@[simp] theorem State.advance_flag (k : Nat) : (s.advance).flag k = s.flag k := rfl
@[simp] theorem State.advance_memRead (a : Addr) : memRead a (s.advance) = memRead a s := rfl
@[simp] theorem State.stopRun_nreg : (s.stopRun).nreg = s.nreg := rfl
@[simp] theorem State.stopRun_reg (k : Nat) : (s.stopRun).reg k = s.reg k := rfl
@[simp] theorem State.stopRun_nstat : (s.stopRun).nstat = s.nstat := rfl
@[simp] theorem State.stopRun_flag (k : Nat) : (s.stopRun).flag k = s.flag k := rfl
@[simp] theorem State.stopRun_memRead (a : Addr) : memRead a (s.stopRun) = memRead a s := rfl
@[simp] theorem State.addCost_nreg (n : Nat) : (s.addCost n).nreg = s.nreg := rfl
@[simp] theorem State.addCost_reg (n : Nat) (k : Nat) : (s.addCost n).reg k = s.reg k := rfl
@[simp] theorem State.addCost_nstat (n : Nat) : (s.addCost n).nstat = s.nstat := rfl
@[simp] theorem State.addCost_flag (n : Nat) (k : Nat) : (s.addCost n).flag k = s.flag k := rfl
@[simp] theorem State.addCost_memRead (n : Nat) (a : Addr) : memRead a (s.addCost n) = memRead a s := rfl
@[simp] theorem State.setCache_nreg (c : Cache) : (s.setCache c).nreg = s.nreg := rfl
@[simp] theorem State.setCache_reg (c : Cache) (k : Nat) : (s.setCache c).reg k = s.reg k := rfl
@[simp] theorem State.setCache_nstat (c : Cache) : (s.setCache c).nstat = s.nstat := rfl
@[simp] theorem State.setCache_flag (c : Cache) (k : Nat) : (s.setCache c).flag k = s.flag k := rfl
@[simp] theorem State.setCache_memRead (c : Cache) (a : Addr) : memRead a (s.setCache c) = memRead a s := rfl
@[simp] theorem State.setFlag_nreg (j : Nat) (b : Bool) : (s.setFlag j b).nreg = s.nreg := rfl
@[simp] theorem State.setFlag_reg (j : Nat) (b : Bool) (k : Nat) : (s.setFlag j b).reg k = s.reg k := rfl
@[simp] theorem State.setFlag_nstat (j : Nat) (b : Bool) : (s.setFlag j b).nstat = s.nstat := List.length_set
@[simp] theorem State.setFlag_memRead (j : Nat) (b : Bool) (a : Addr) : memRead a (s.setFlag j b) = memRead a s := rfl
@[simp] theorem State.raise_nreg (e : OperationError) : (s.raise e).nreg = s.nreg := rfl
@[simp] theorem State.raise_reg (e : OperationError) (k : Nat) : (s.raise e).reg k = s.reg k := rfl
@[simp] theorem State.raise_nstat (e : OperationError) : (s.raise e).nstat = s.nstat := rfl
@[simp] theorem State.raise_flag (e : OperationError) (k : Nat) : (s.raise e).flag k = s.flag k := rfl
@[simp] theorem State.raise_memRead (e : OperationError) (a : Addr) : memRead a (s.raise e) = memRead a s := rfl
@[simp] theorem State.setReg_nreg (i : Nat) (v : Value) : (s.setReg i v).nreg = s.nreg := List.length_set
@[simp] theorem State.setReg_nstat (i : Nat) (v : Value) : (s.setReg i v).nstat = s.nstat := rfl
@[simp] theorem State.setReg_flag (i : Nat) (v : Value) (k : Nat) : (s.setReg i v).flag k = s.flag k := rfl
@[simp] theorem State.setReg_memRead (i : Nat) (v : Value) (a : Addr) : memRead a (s.setReg i v) = memRead a s := rfl
@[simp] theorem State.loadProgram_nreg (entries : List Entry) : (s.loadProgram entries).nreg = s.nreg := rfl
@[simp] theorem State.loadProgram_reg (entries : List Entry) (k : Nat) : (s.loadProgram entries).reg k = s.reg k := rfl
@[simp] theorem State.loadProgram_nstat (entries : List Entry) : (s.loadProgram entries).nstat = s.nstat := rfl
@[simp] theorem State.loadProgram_flag (entries : List Entry) (k : Nat) : (s.loadProgram entries).flag k = s.flag k := rfl
@[simp] theorem State.loadProgram_memRead (entries : List Entry) (a : Addr) : memRead a (s.loadProgram entries) = memRead a s := rfl
@[simp] theorem memWrite_nreg (a : Addr) (v : Value) : (memWrite a v s).nreg = s.nreg := rfl
@[simp] theorem memWrite_nstat (a : Addr) (v : Value) : (memWrite a v s).nstat = s.nstat := rfl
@[simp] theorem memWrite_reg (a : Addr) (v : Value) (k : Nat) : (memWrite a v s).reg k = s.reg k := rfl
@[simp] theorem memWrite_flag (a : Addr) (v : Value) (k : Nat) : (memWrite a v s).flag k = s.flag k := rfl

/-- A register in range reads back the value written to it, and every other register reads as before. -/
theorem State.setReg_reg {i : Nat} (h : i < s.nreg) (v : Value) (k : Nat) :
    (s.setReg i v).reg k = if k = i then v else s.reg k := by
  unfold State.nreg at h
  by_cases hk : k = i
  · subst hk
    simp [State.reg, h]
  · simp [State.reg, hk, Ne.symm hk]

/-- A status register in range reads back the value written to it, and every other one reads as before. -/
theorem State.setFlag_flag {j : Nat} (h : j < s.nstat) (b : Bool) (k : Nat) :
    (s.setFlag j b).flag k = if k = j then b else s.flag k := by
  unfold State.nstat at h
  by_cases hk : k = j
  · subst hk
    simp [State.flag, h]
  · simp [State.flag, hk, Ne.symm hk]

/-- A register in range, as an entry of the register file. -/
theorem State.getElem?_x {i : Nat} (h : i < s.nreg) : s.x[i]? = some (s.reg i) := by
  unfold State.nreg at h
  simp [State.reg, h]

end Sys2Proof.Machine
end

