-- ==== Sys2Proof/Laws/Memory.lean ====
section
/-! SUPPORT. The laws of Memory: read after write, and the canonical form kept by its one writing operation. -/

namespace Sys2Proof.Machine

/-- Reading a cell after a write to the same cell or another (20_memory.md R61, R62). -/
theorem memRead_memWrite (addr a : Addr) (v : Value) (s : State) :
    memRead a (memWrite addr v s) = if a = addr then v else memRead a s := by
  unfold memRead Memory.read
  rw [memWrite_mem, FiniteMap.find_bind]
  split <;> rfl

@[simp] theorem memRead_memWrite_same (addr : Addr) (v : Value) (s : State) : memRead addr (memWrite addr v s) = v := by
  simp [memRead_memWrite]

theorem memRead_memWrite_other {addr a : Addr} (v : Value) (s : State) (h : a ≠ addr) :
    memRead a (memWrite addr v s) = memRead a s := by simp [memRead_memWrite, h]

/-- A write keeps Memory in canonical form. -/
theorem Memory.wf_memWrite {s : State} (h : Memory.wf s.mem) (addr : Addr) (v : Value) :
    Memory.wf (memWrite addr v s).mem := FiniteMap.wf_bind h addr v

/-- Memory is in canonical form at reset. -/
theorem Memory.wf_reset : Memory.wf State.reset.mem := List.Pairwise.nil

end Sys2Proof.Machine
end

