-- ==== Sys2Proof/Laws/Ops.lean ====
section
/-! SUPPORT. One lemma for each shared operation that says everything it can do, for the later proofs to cite. -/

namespace Sys2Proof.Machine

variable {s t : State} {i j d : Nat} {v : Value} {o a b : Src}

/-! ### Accesses -/

@[simp] theorem Access.bind_done {α β : Type} (v : α) (s : State) (f : α → State → Access β) :
    (Access.done v s).bind f = f v s := rfl

@[simp] theorem Access.bind_raised {α β : Type} (s : State) (f : α → State → Access β) :
    (Access.raised s : Access α).bind f = .raised s := rfl

@[simp] theorem retire_done (n : Nat) (u : Unit) (s : State) : retire n (.done u s) = .next (s.addCost n) := rfl

@[simp] theorem retire_raised (n : Nat) (s : State) : retire n (.raised s) = .next s := rfl

/-! ### `regFetch` -/

/-- A completed fetch changes only the cache: a hit promotes the entry, a miss inserts the register's value. -/
theorem regFetch_done (h : regFetch i s = .done v t) :
    i < s.nreg ∧
      ((Cache.find s.cache i = some v ∧ t = s.setCache (Cache.promote s.cache i v)) ∨
        (Cache.find s.cache i = none ∧ v = s.reg i ∧
          t = s.setCache (Cache.insert s.cacheCap s.cache i (s.reg i)))) := by
  unfold regFetch at h
  split at h
  · split at h <;> cases h
    · exact ⟨‹_›, .inl ⟨‹_›, rfl⟩⟩
    · exact ⟨‹_›, .inr ⟨‹_›, rfl, rfl⟩⟩
  · cases h

/-- A fetch raises exactly for an index out of range, and then only latches the error. -/
theorem regFetch_raised_iff : regFetch i s = .raised t ↔ s.nreg ≤ i ∧ t = s.raise (dataIndexError i) := by
  unfold regFetch
  split
  · split <;> simp <;> omega
  · simp only [Access.raised.injEq]
    exact ⟨fun h => ⟨by omega, h.symm⟩, fun h => h.2.symm⟩

/-- With a coherent cache a fetch in range answers the register's value and leaves a coherent cache. -/
theorem regFetch_coherent (hc : Cache.Coherent s.cacheCap s.x s.cache) (hi : i < s.nreg) :
    ∃ c, regFetch i s = .done (s.reg i) (s.setCache c) ∧ Cache.Coherent s.cacheCap s.x c := by
  have hx := s.getElem?_x hi
  unfold regFetch
  rw [if_pos hi]
  cases hf : Cache.find s.cache i with
  | none => exact ⟨_, rfl, hc.insert hf hx⟩
  | some w =>
    have hw : s.reg i = w := by
      have := hc.of_find hf
      rw [hx] at this
      exact Option.some.inj this
    subst hw
    exact ⟨_, rfl, hc.promote hf⟩

/-! ### `regWrite` -/

/-- A write in range. -/
theorem regWrite_of_lt (hi : i < s.nreg) (v : Value) : regWrite i v s = .done () (s.setReg i v) := if_pos hi

/-- A write out of range. -/
theorem regWrite_of_le (hi : s.nreg ≤ i) (v : Value) : regWrite i v s = .raised (s.raise (dataIndexError i)) :=
  if_neg (by omega)

/-! ### `statusRead`, `statusWrite` -/

theorem statusRead_of_lt (hj : j < s.nstat) : statusRead j s = .done (s.flag j) s := if_pos hj

theorem statusRead_of_le (hj : s.nstat ≤ j) : statusRead j s = .raised (s.raise (statusIndexError j)) :=
  if_neg (by omega)

theorem statusWrite_of_lt (hj : j < s.nstat) (c : Bool) : statusWrite j c s = .done () (s.setFlag j c) := if_pos hj

theorem statusWrite_of_le (hj : s.nstat ≤ j) (c : Bool) :
    statusWrite j c s = .raised (s.raise (statusIndexError j)) := if_neg (by omega)

/-! ### `resolve` -/

@[simp] theorem resolve_lit (n : Value) (s : State) : resolve (.lit n) s = .done n s := rfl

@[simp] theorem resolve_reg (i : Nat) (s : State) : resolve (.reg i) s = regFetch i s := rfl

/-- A completed resolution changes at most the cache, and its operand was in range. -/
theorem resolve_done (h : resolve o s = .done v t) : o.inRange s.nreg = true ∧ ∃ c, t = s.setCache c := by
  cases o with
  | lit n => cases h; exact ⟨rfl, s.cache, rfl⟩
  | reg i =>
    obtain ⟨hi, ⟨-, ht⟩ | ⟨-, -, ht⟩⟩ := regFetch_done h
    · exact ⟨by simpa [Src.inRange] using hi, _, ht⟩
    · exact ⟨by simpa [Src.inRange] using hi, _, ht⟩

/-- A resolution raises exactly for a register reference out of range, and then only latches the error. -/
theorem resolve_raised (h : resolve o s = .raised t) :
    ∃ i, o = .reg i ∧ s.nreg ≤ i ∧ t = s.raise (dataIndexError i) := by
  cases o with
  | lit n => cases h
  | reg i => exact ⟨i, rfl, regFetch_raised_iff.mp h⟩

/-- With a coherent cache an operand in range resolves to its value and leaves a coherent cache. -/
theorem resolve_coherent (hc : Cache.Coherent s.cacheCap s.x s.cache) (ho : o.inRange s.nreg = true) :
    ∃ c, resolve o s = .done (s.srcValue o) (s.setCache c) ∧ Cache.Coherent s.cacheCap s.x c := by
  cases o with
  | lit n => exact ⟨s.cache, rfl, hc⟩
  | reg i => exact regFetch_coherent hc (by simpa [Src.inRange] using ho)

/-! ### `binOp` -/

/-- The three ways a three-operand operation goes on: operand 1 raises; operand 2 raises after operand 1 was resolved;
or both are resolved and the destination is written in a state that differs from the first at most in the cache. -/
theorem binOp_cases {β : Type} (f : Value → Value → β) (wb : Nat → β → State → Access Unit) (a b : Src) (d : Nat)
    (s : State) :
    (∃ i, a = .reg i ∧ s.nreg ≤ i ∧ binOp f a b d wb s = .raised (s.raise (dataIndexError i))) ∨
      (∃ i c, a.inRange s.nreg = true ∧ b = .reg i ∧ s.nreg ≤ i ∧
        binOp f a b d wb s = .raised ((s.setCache c).raise (dataIndexError i))) ∨
      (∃ va vb c, a.inRange s.nreg = true ∧ b.inRange s.nreg = true ∧
        binOp f a b d wb s = wb d (f va vb) (s.setCache c)) := by
  unfold binOp
  cases ha : resolve a s with
  | raised t =>
    obtain ⟨i, rfl, hi, rfl⟩ := resolve_raised ha
    exact .inl ⟨i, rfl, hi, rfl⟩
  | done va s₁ =>
    obtain ⟨har, c₁, rfl⟩ := resolve_done ha
    cases hb : resolve b (s.setCache c₁) with
    | raised t =>
      obtain ⟨i, rfl, hi, rfl⟩ := resolve_raised hb
      exact .inr (.inl ⟨i, c₁, har, rfl, hi, by rw [Access.bind_done, hb]; rfl⟩)
    | done vb s₂ =>
      obtain ⟨hbr, c₂, rfl⟩ := resolve_done hb
      exact .inr (.inr ⟨va, vb, c₂, har, hbr, by rw [Access.bind_done, hb]; rfl⟩)

/-- With a coherent cache and sources in range, the destination is written with the function of the sources' values, in
a state that differs only in a coherent cache. -/
theorem binOp_coherent {β : Type} (f : Value → Value → β) (wb : Nat → β → State → Access Unit) (d : Nat)
    (hc : Cache.Coherent s.cacheCap s.x s.cache) (ha : a.inRange s.nreg = true) (hb : b.inRange s.nreg = true) :
    ∃ c, binOp f a b d wb s = wb d (f (s.srcValue a) (s.srcValue b)) (s.setCache c) ∧
      Cache.Coherent s.cacheCap s.x c := by
  obtain ⟨c₁, h₁, hc₁⟩ := resolve_coherent hc ha
  obtain ⟨c₂, h₂, hc₂⟩ := resolve_coherent (s := s.setCache c₁) (o := b) hc₁ hb
  refine ⟨c₂, ?_, hc₂⟩
  have hval : (s.setCache c₁).srcValue b = s.srcValue b := by cases b <;> rfl
  simp only [binOp, h₁, h₂, Access.bind_done, hval]
  rfl

end Sys2Proof.Machine
end

