-- ==== Sys2Proof/Laws/Step.lean ====
section
/-! SUPPORT. The four things a step can do, and the words the fetch reads. -/

namespace Sys2Proof.Machine

variable {s : State}

theorem step_of_fault {e : OperationError} (h : s.fault = some e) : step s = .fault (.aborted e) := by
  simp [step, cycle, h]

theorem step_of_halted (h : s.fault = none) (hr : s.running = false) : step s = .fault .halted := by
  simp [step, cycle, h, hr]

theorem step_of_absent (h : s.fault = none) (hr : s.running = true) (hp : FiniteMap.find s.prog s.pc = none) :
    step s = .fault .ranOffEnd := by
  simp [step, cycle, h, hr, hp]

theorem step_of_entry {e : Entry} (h : s.fault = none) (hr : s.running = true)
    (hp : FiniteMap.find s.prog s.pc = some e) : step s = execEntry e s := by
  simp [step, cycle, h, hr, hp]

/-- Everything a step can do: one of the three terminal answers, or the fetched entry. -/
theorem step_cases (s : State) :
    (∃ e, s.fault = some e ∧ step s = .fault (.aborted e)) ∨
      (s.fault = none ∧ s.running = false ∧ step s = .fault .halted) ∨
      (s.fault = none ∧ s.running = true ∧ FiniteMap.find s.prog s.pc = none ∧ step s = .fault .ranOffEnd) ∨
      (∃ e, s.fault = none ∧ s.running = true ∧ FiniteMap.find s.prog s.pc = some e ∧ step s = execEntry e s) := by
  cases hf : s.fault with
  | some e => exact .inl ⟨e, rfl, step_of_fault hf⟩
  | none =>
    cases hr : s.running with
    | false => exact .inr (.inl ⟨rfl, rfl, step_of_halted hf hr⟩)
    | true =>
      cases hp : FiniteMap.find s.prog s.pc with
      | none => exact .inr (.inr (.inl ⟨rfl, rfl, rfl, step_of_absent hf hr hp⟩))
      | some e => exact .inr (.inr (.inr ⟨e, rfl, rfl, rfl, step_of_entry hf hr hp⟩))

/-- What stands at the next fetch address of a state made for a word that decodes. -/
theorem withFetchWord_of_decode {nbits w : Nat} {i : Instr} (h : decodeTableWord nbits w = some i) (s : State) :
    s.withFetchWord nbits w = { s with prog := FiniteMap.bind s.prog s.pc (.instr i) } := by
  simp [State.withFetchWord, h]

end Sys2Proof.Machine
end

