-- ==== Sys2Proof/Laws/PerInstr.lean ====
section
/-! SUPPORT. A fact about every instruction as syntax, one lemma per constructor: what its decode label fixes. -/

namespace Sys2Proof.Laws.FieldsByArity

/-- The fields a label's arity trims are zero in an instruction's word, and an instruction's own fields, when it has no
literal, give the instruction back (30_encoding.md R87, R88, R90). -/
def Statement (i : Instr) : Prop :=
  (∀ k, i.label.arity ≤ k → k < 3 → [i.fields.1, i.fields.2.1, i.fields.2.2][k]? = some 0) ∧
    (i.encodable = true → instrOfFields i.label i.fields.1 i.fields.2.1 i.fields.2.2 = i)

/-- A register reference is its own field. -/
theorem reg_field {a : Src} (h : a.encodable = true) : Src.reg a.field = a := by
  cases a with
  | lit n => cases h
  | reg i => rfl

theorem nop : Statement .nop := by
  refine ⟨fun k _ h => ?_, fun _ => rfl⟩
  interval_cases k <;> rfl

theorem halt : Statement .halt := by
  refine ⟨fun k _ h => ?_, fun _ => rfl⟩
  interval_cases k <;> rfl

theorem cmp (a b : Src) (d : Nat) : Statement (.cmp a b d) := by
  refine ⟨fun k h h' => by simp [Instr.label, Label.arity] at h; omega, fun h => ?_⟩
  simp only [Instr.encodable, Bool.and_eq_true] at h
  simp [Instr.label, Instr.fields, instrOfFields, reg_field h.1.1, reg_field h.1.2]

theorem cne (a b : Src) (d : Nat) : Statement (.cne a b d) := by
  refine ⟨fun k h h' => by simp [Instr.label, Label.arity] at h; omega, fun h => ?_⟩
  simp only [Instr.encodable, Bool.and_eq_true] at h
  simp [Instr.label, Instr.fields, instrOfFields, reg_field h.1.1, reg_field h.1.2]

theorem jmpc (target : Addr) (j : Nat) : Statement (.jmpc target j) := by
  refine ⟨fun k h h' => ?_, fun _ => rfl⟩
  simp only [Instr.label, Label.arity] at h
  interval_cases k
  rfl

theorem jmpu (target : Addr) : Statement (.jmpu target) := by
  refine ⟨fun k h h' => ?_, fun _ => rfl⟩
  simp only [Instr.label, Label.arity] at h
  interval_cases k <;> rfl

theorem load (addr : Addr) (d : Nat) : Statement (.load addr d) := by
  refine ⟨fun k h h' => ?_, fun _ => rfl⟩
  simp only [Instr.label, Label.arity] at h
  interval_cases k
  rfl

theorem store (r : Nat) (addr : Addr) : Statement (.store r addr) := by
  refine ⟨fun k h h' => ?_, fun _ => rfl⟩
  simp only [Instr.label, Label.arity] at h
  interval_cases k
  rfl

theorem add (a b : Src) (d : Nat) : Statement (.add a b d) := by
  refine ⟨fun k h h' => by simp [Instr.label, Label.arity] at h; omega, fun h => ?_⟩
  simp only [Instr.encodable, Bool.and_eq_true] at h
  simp [Instr.label, Instr.fields, instrOfFields, reg_field h.1.1, reg_field h.1.2]

theorem sub (a b : Src) (d : Nat) : Statement (.sub a b d) := by
  refine ⟨fun k h h' => by simp [Instr.label, Label.arity] at h; omega, fun h => ?_⟩
  simp only [Instr.encodable, Bool.and_eq_true] at h
  simp [Instr.label, Instr.fields, instrOfFields, reg_field h.1.1, reg_field h.1.2]

theorem mult (a b : Src) (d : Nat) : Statement (.mult a b d) := by
  refine ⟨fun k h h' => by simp [Instr.label, Label.arity] at h; omega, fun h => ?_⟩
  simp only [Instr.encodable, Bool.and_eq_true] at h
  simp [Instr.label, Instr.fields, instrOfFields, reg_field h.1.1, reg_field h.1.2]

end Sys2Proof.Laws.FieldsByArity
end

