-- ==== Sys2Proof/Laws/Decode.lean ====
section
/-! SUPPORT. The small laws of the decoders and encoders: opcode tables, word fields, binary lines, decimal numerals and
tokens. -/

namespace Sys2Proof

/-! ### Opcode tables -/

theorem Label.mem_all (l : Label) : l ∈ Label.all := by cases l <;> decide

/-- A well-formed table gives no opcode to two labels. -/
theorem OpMap.WellFormed.inj {m : OpMap} (h : m.WellFormed) {a b : Label} (hab : m a = m b) : a = b :=
  List.inj_on_of_nodup_map h (Label.mem_all a) (Label.mem_all b) hab

/-- A table finds the label of its own opcode. -/
theorem OpMap.labelOf_self {m : OpMap} (h : m.WellFormed) (l : Label) : m.labelOf (m l) = some l := by
  unfold OpMap.labelOf
  cases hf : Label.all.find? (fun l' => m l' == m l) with
  | none => simpa using List.find?_eq_none.mp hf l (Label.mem_all l)
  | some l' =>
    have hl : l' = l := h.inj (by simpa using List.find?_some hf)
    rw [hl]

theorem OpMap.of_labelOf {m : OpMap} {op : Nibble} {l : Label} (h : m.labelOf op = some l) : m l = op := by
  simpa using List.find?_some h

/-- A table finds no label for an opcode exactly when it gives that opcode to none. -/
theorem OpMap.labelOf_eq_none {m : OpMap} {op : Nibble} : m.labelOf op = none ↔ ∀ l, m l ≠ op := by
  unfold OpMap.labelOf
  rw [List.find?_eq_none]
  exact ⟨fun h l => by simpa using h l (Label.mem_all l), fun h l _ => by simpa using h l⟩

/-- The default table is well formed. -/
theorem OpMap.default_wellFormed : OpMap.default.WellFormed := by decide

/-! ### The fields of a word -/

theorem wordField_append_0 (a b c d : Nibble) : wordField (a ++ b ++ c ++ d) 0 = d := by
  show (a ++ b ++ c ++ d : BitVec (4 + 4 + 4 + 4)).extractLsb' 0 4 = d
  ext i hi
  simp only [BitVec.getElem_extractLsb', BitVec.getLsbD_append]
  simp [hi]

theorem wordField_append_4 (a b c d : Nibble) : wordField (a ++ b ++ c ++ d) 4 = c := by
  show (a ++ b ++ c ++ d : BitVec (4 + 4 + 4 + 4)).extractLsb' 4 4 = c
  ext i hi
  simp only [BitVec.getElem_extractLsb', BitVec.getLsbD_append]
  simp [hi]

theorem wordField_append_8 (a b c d : Nibble) : wordField (a ++ b ++ c ++ d) 8 = b := by
  show (a ++ b ++ c ++ d : BitVec (4 + 4 + 4 + 4)).extractLsb' 8 4 = b
  ext i hi
  simp only [BitVec.getElem_extractLsb', BitVec.getLsbD_append]
  rw [if_neg (by omega), if_neg (by omega), if_pos (by omega), show 8 + i - 4 - 4 = i by omega,
    BitVec.getLsbD_eq_getElem hi]

theorem wordField_append_12 (a b c d : Nibble) : wordField (a ++ b ++ c ++ d) 12 = a := by
  show (a ++ b ++ c ++ d : BitVec (4 + 4 + 4 + 4)).extractLsb' 12 4 = a
  ext i hi
  simp only [BitVec.getElem_extractLsb', BitVec.getLsbD_append]
  rw [if_neg (by omega), if_neg (by omega), if_neg (by omega), show 12 + i - 4 - 4 - 4 = i by omega,
    BitVec.getLsbD_eq_getElem hi]

/-- The operand fields of an encodable instruction fit 4 bits. -/
theorem Instr.fields_lt {i : Instr} (h : i.encodable = true) :
    i.fields.1 < 16 ∧ i.fields.2.1 < 16 ∧ i.fields.2.2 < 16 := by
  have hs : ∀ a : Src, a.encodable = true → a.field < 16 := by
    intro a
    cases a <;> simp [Src.encodable, Src.field]
  cases i <;> simp only [Instr.encodable, Bool.and_eq_true, decide_eq_true_eq] at h <;>
    simp only [Instr.fields] <;> (try simp [h])
  all_goals exact ⟨hs _ h.1.1, hs _ h.1.2⟩

/-- What a word decodes to is the instruction of its label and fields. -/
theorem decode16_some {m : OpMap} {w : Word} {i : Instr} (h : decode16 m w = some i) :
    ∃ l, m l = wordField w 12 ∧
      i = instrOfFields l (wordField w 8).toNat (wordField w 4).toNat (wordField w 0).toNat := by
  unfold decode16 at h
  cases hl : m.labelOf (wordField w 12) with
  | none => rw [hl] at h; cases h
  | some l => rw [hl] at h; exact ⟨l, OpMap.of_labelOf hl, (Option.some.inj h).symm⟩

@[simp] theorem instrOfFields_label (l : Label) (a b c : Nat) : (instrOfFields l a b c).label = l := by cases l <;> rfl

/-! ### Binary lines -/

theorem isBit_of_mem_bitsOf (w : Word) (n : Nat) : ∀ c ∈ bitsOf w n, isBit c = true := by
  induction n with
  | zero => simp [bitsOf]
  | succ n ih =>
    simp only [bitsOf, List.mem_cons, forall_eq_or_imp]
    exact ⟨by split <;> rfl, ih⟩

@[simp] theorem length_bitsOf (w : Word) (n : Nat) : (bitsOf w n).length = n := by
  induction n <;> simp [bitsOf, *]

theorem firstBadField_eq_none (p : Nat) {fs : List Line} (h : ∀ f ∈ fs, ∀ c ∈ f, isBit c = true) :
    firstBadField p fs = none := by
  induction fs generalizing p with
  | nil => rfl
  | cons f fs ih =>
    rw [firstBadField, if_pos (List.all_eq_true.mpr (h f List.mem_cons_self))]
    exact ih _ fun g hg => h g (List.mem_cons_of_mem _ hg)

theorem mem_of_mem_lineFields {l f : Line} (hf : f ∈ lineFields l) {c : Char} (hc : c ∈ f) : c ∈ l := by
  simp only [lineFields, List.mem_cons, List.not_mem_nil, or_false] at hf
  rcases hf with rfl | rfl | rfl | rfl
  · exact List.mem_of_mem_take hc
  all_goals exact List.mem_of_mem_drop (List.mem_of_mem_take hc)

/-- The value of the written-out low bits of a word. -/
theorem bitsValue_bitsOf (w : Word) (n acc : Nat) : bitsValue acc (bitsOf w n) = acc * 2 ^ n + w.toNat % 2 ^ n := by
  induction n generalizing acc with
  | zero => simp [bitsOf, bitsValue, Nat.mod_one]
  | succ n ih =>
    simp only [bitsOf, bitsValue, ih]
    rw [show (if (if w.getLsbD n then '1' else '0') == '1' then 1 else 0) = (w.getLsbD n).toNat by
        cases w.getLsbD n <;> rfl,
      show w.getLsbD n = w.toNat.testBit n from rfl, Nat.toNat_testBit, Nat.mod_pow_succ, Nat.pow_succ]
    ring

/-- A word is the word of its own binary line. -/
@[simp] theorem wordOfLine_lineOfWord (w : Word) : wordOfLine (lineOfWord w) = w := by
  unfold wordOfLine lineOfWord
  rw [bitsValue_bitsOf]
  apply BitVec.eq_of_toNat_eq
  simpa using w.isLt

/-! ### Decimal numerals -/

theorem isDigit_digitChar {n : Nat} (h : n < 10) : isDigit (digitChar n) = true := by
  interval_cases n <;> decide

theorem digitChar_value {n : Nat} (h : n < 10) : (digitChar n).toNat - 48 = n := by
  interval_cases n <;> decide

theorem isDigit_of_mem_digitsRev (fuel n : Nat) : ∀ c ∈ digitsRev fuel n, isDigit c = true := by
  induction fuel generalizing n with
  | zero => simp [digitsRev]
  | succ fuel ih =>
    unfold digitsRev
    split
    · simpa using isDigit_digitChar ‹_›
    · simp only [List.mem_cons, forall_eq_or_imp]
      exact ⟨isDigit_digitChar (Nat.mod_lt _ (by decide)), ih _⟩

/-- Every character of a numeral is a digit. -/
theorem isDigit_of_mem_decimal (n : Nat) : ∀ c ∈ decimal n, isDigit c = true := fun c hc =>
  isDigit_of_mem_digitsRev _ _ c (by simpa [decimal] using hc)

theorem decimal_ne_nil (n : Nat) : decimal n ≠ [] := by
  unfold decimal digitsRev
  split <;> simp

/-- Reading one more digit at the end. -/
theorem digitsValue_append_digit (l : Line) (c : Char) (acc : Nat) (hc : isDigit c = true) :
    digitsValue acc (l ++ [c]) = (digitsValue acc l).map fun v => 10 * v + (c.toNat - 48) := by
  induction l generalizing acc with
  | nil => simp [digitsValue, hc]
  | cons d l ih =>
    simp only [List.cons_append, digitsValue]
    split
    · exact ih _
    · rfl

theorem digitsValue_digitsRev {fuel n : Nat} (h : n < fuel) : digitsValue 0 (digitsRev fuel n).reverse = some n := by
  induction fuel generalizing n with
  | zero => omega
  | succ fuel ih =>
    unfold digitsRev
    split
    · rename_i hn
      simp [digitsValue, isDigit_digitChar hn, digitChar_value hn]
    · rename_i hn
      have hmod : n % 10 < 10 := Nat.mod_lt _ (by decide)
      rw [List.reverse_cons, digitsValue_append_digit _ _ _ (isDigit_digitChar hmod), ih (by omega),
        Option.map_some, digitChar_value hmod]
      congr 1
      omega

/-- A numeral is the bare integer it spells. -/
@[simp] theorem bareInteger_decimal (n : Nat) : bareInteger (decimal n) = some n := by
  unfold bareInteger
  rw [if_neg (by simpa using decimal_ne_nil n)]
  exact digitsValue_digitsRev (Nat.lt_succ_self n)

/-! ### Tokens -/

/-- Reading the characters of a token adds them to the token read so far. -/
theorem splitTokens_append {w : Line} (hw : ∀ c ∈ w, isBlank c = false) (token rest : Line) :
    splitTokens token (w ++ rest) = splitTokens (token ++ w) rest := by
  induction w generalizing token with
  | nil => simp
  | cons c w ih =>
    rw [List.cons_append, splitTokens, if_neg (by simp [hw c List.mem_cons_self]),
      ih (fun d hd => hw d (List.mem_cons_of_mem _ hd))]
    simp

/-- The tokens of a line that is a token and then tokens with one space before each. -/
theorem tokensOf_join {w : Line} {ws : List Line} (hw : w ≠ []) (hb : ∀ c ∈ w, isBlank c = false)
    (hws : ∀ v ∈ ws, v ≠ [] ∧ ∀ c ∈ v, isBlank c = false) :
    tokensOf (w ++ ws.flatMap fun token => ' ' :: token) = w :: ws := by
  unfold tokensOf
  rw [splitTokens_append hb, List.nil_append]
  induction ws generalizing w with
  | nil => simp [splitTokens, flushToken, hw]
  | cons v ws ih =>
    obtain ⟨hv, hvb⟩ := hws v List.mem_cons_self
    rw [List.flatMap_cons, List.cons_append, splitTokens, if_pos (by decide), flushToken, if_neg (by simpa using hw),
      splitTokens_append hvb, List.nil_append, ih hv hvb fun u hu => hws u (List.mem_cons_of_mem _ hu)]
    rfl

/-- A digit is not a blank. -/
theorem isBlank_of_isDigit {c : Char} (h : isDigit c = true) : isBlank c = false := by
  simp only [isDigit, Bool.and_eq_true, decide_eq_true_eq] at h
  simp only [isBlank, Bool.or_eq_false_iff, beq_eq_false_iff_ne]
  constructor <;> rintro rfl <;> revert h <;> decide

end Sys2Proof
end

