-- ==== Sys2Proof/Laws/Exec.lean ====
section
/-! SUPPORT. What the meanings can do, said once: a three-operand instruction, LOAD, STORE and the conditional JMP either
complete or latch the first access that is out of range; and what every instruction does to the control state. -/

namespace Sys2Proof.Machine

variable {s t : State} {a b o : Src} {d j r n : Nat} {addr target : Addr}

/-! ### The first access out of range -/

theorem srcAccesses_find_none (h : o.inRange s.nreg = true) : (srcAccesses o).find? s.outside = none := by
  cases o with
  | lit n => rfl
  | reg i =>
    have hi : i < s.nreg := by simpa [Src.inRange] using h
    simp [srcAccesses, State.outside, hi]

theorem srcAccesses_find_some {i : Nat} (h : s.nreg ≤ i) :
    (srcAccesses (.reg i)).find? s.outside = some (dataIndexError i) := by
  simp [srcAccesses, State.outside, h, dataIndexError]

/-- The first access out of range of a three-operand instruction, when its sources are in range. -/
theorem find_outside_destination (ha : a.inRange s.nreg = true) (hb : b.inRange s.nreg = true) (e : OperationError) :
    (srcAccesses a ++ srcAccesses b ++ [e]).find? s.outside = if s.outside e = true then some e else none := by
  rw [List.find?_append, List.find?_append, srcAccesses_find_none ha, srcAccesses_find_none hb]
  cases h : s.outside e <;> simp [h]

/-! ### Three-operand instructions -/

/-- A three-operand operation either writes its destination, sources and destination being in range, or latches its first
access out of range; besides that only the cache changes. `write` is what the destination write does, `file` the register
file it is bounds-checked against. -/
theorem binOp_inversion {β : Type} {f : Value → Value → β} {wb : Nat → β → State → Access Unit} {file : RegFile}
    {write : State → β → State}
    (hin : ∀ u v, u.outside ⟨file, d⟩ = false → wb d v u = .done () (write u v))
    (hout : ∀ u v, u.outside ⟨file, d⟩ = true → wb d v u = .raised (u.raise ⟨file, d⟩))
    (h : retire n (binOp f a b d wb s) = .next t) :
    (∃ c v, a.inRange s.nreg = true ∧ b.inRange s.nreg = true ∧ s.outside ⟨file, d⟩ = false ∧
        t = (write (s.setCache c) v).addCost n) ∨
      (∃ c e, (srcAccesses a ++ srcAccesses b ++ [OperationError.mk file d]).find? s.outside = some e ∧
        t = (s.setCache c).raise e) := by
  rcases binOp_cases f wb a b d s with ⟨i, rfl, hi, hw⟩ | ⟨i, c, ha, rfl, hi, hw⟩ | ⟨va, vb, c, ha, hb, hw⟩
  · rw [hw] at h; cases h
    refine .inr ⟨s.cache, dataIndexError i, ?_, rfl⟩
    rw [List.find?_append, List.find?_append, srcAccesses_find_some hi]
    rfl
  · rw [hw] at h; cases h
    refine .inr ⟨c, dataIndexError i, ?_, rfl⟩
    rw [List.find?_append, List.find?_append, srcAccesses_find_none ha, srcAccesses_find_some hi]
    rfl
  · rw [hw] at h
    have hsame : (s.setCache c).outside ⟨file, d⟩ = s.outside ⟨file, d⟩ := by cases file <;> rfl
    cases ho : s.outside ⟨file, d⟩ with
    | false =>
      rw [hin _ _ (hsame.trans ho)] at h; cases h
      exact .inl ⟨c, f va vb, ha, hb, rfl, rfl⟩
    | true =>
      rw [hout _ _ (hsame.trans ho)] at h; cases h
      exact .inr ⟨c, ⟨file, d⟩, by rw [find_outside_destination ha hb, if_pos ho], rfl⟩

/-- `binOp_inversion` for a data-register destination. -/
theorem binOp_regWrite_inversion {f : Value → Value → Value} (h : retire n (binOp f a b d regWrite s) = .next t) :
    (∃ c v, a.inRange s.nreg = true ∧ b.inRange s.nreg = true ∧ s.outside ⟨.data, d⟩ = false ∧
        t = ((s.setCache c).setReg d v).addCost n) ∨
      (∃ c e, (srcAccesses a ++ srcAccesses b ++ [OperationError.mk .data d]).find? s.outside = some e ∧
        t = (s.setCache c).raise e) :=
  binOp_inversion (write := fun u v => u.setReg d v)
    (fun u v hu => regWrite_of_lt (by simpa [State.outside] using hu) v)
    (fun u v hu => regWrite_of_le (by simpa [State.outside] using hu) v) h

/-- `binOp_inversion` for a status-register destination. -/
theorem binOp_statusWrite_inversion {f : Value → Value → Bool}
    (h : retire n (binOp f a b d statusWrite s) = .next t) :
    (∃ c v, a.inRange s.nreg = true ∧ b.inRange s.nreg = true ∧ s.outside ⟨.status, d⟩ = false ∧
        t = ((s.setCache c).setFlag d v).addCost n) ∨
      (∃ c e, (srcAccesses a ++ srcAccesses b ++ [OperationError.mk .status d]).find? s.outside = some e ∧
        t = (s.setCache c).raise e) :=
  binOp_inversion (write := fun u v => u.setFlag d v)
    (fun u v hu => statusWrite_of_lt (by simpa [State.outside] using hu) v)
    (fun u v hu => statusWrite_of_le (by simpa [State.outside] using hu) v) h

/-! ### LOAD, STORE, conditional JMP -/

theorem execLoad_of_lt (hd : d < s.nreg) :
    execLoad addr d s = .next ((s.setReg d (memRead addr s)).addCost 2) := by
  rw [execLoad, regWrite_of_lt hd]; rfl

theorem execLoad_of_le (hd : s.nreg ≤ d) : execLoad addr d s = .next (s.raise (dataIndexError d)) := by
  rw [execLoad, regWrite_of_le hd]; rfl

theorem execStore_of_le (hr : s.nreg ≤ r) : execStore r addr s = .next (s.raise (dataIndexError r)) := by
  rw [execStore, regFetch_raised_iff.mpr ⟨hr, rfl⟩]; rfl

/-- STORE in range: the fetched value is written to the cell, and the cache is as the fetch left it. -/
theorem execStore_of_lt (hr : r < s.nreg) :
    ∃ v c, regFetch r s = .done v (s.setCache c) ∧
      execStore r addr s = .next ((memWrite addr v (s.setCache c)).addCost 2) := by
  cases hf : regFetch r s with
  | raised u => exact absurd (regFetch_raised_iff.mp hf).1 (by omega)
  | done v u =>
    obtain ⟨-, ⟨-, rfl⟩ | ⟨-, -, rfl⟩⟩ := regFetch_done hf
    · exact ⟨v, _, rfl, by rw [execStore, hf]; rfl⟩
    · exact ⟨v, _, rfl, by rw [execStore, hf]; rfl⟩

theorem execJmpc_of_lt (hj : j < s.nstat) :
    execJmpc target j s = .next ((if s.flag j = true then s.setPc target else s).addCost 4) := by
  rw [execJmpc, statusRead_of_lt hj]; rfl

theorem execJmpc_of_le (hj : s.nstat ≤ j) : execJmpc target j s = .next (s.raise (statusIndexError j)) := by
  rw [execJmpc, statusRead_of_le hj]; rfl

/-! ### Every instruction -/

/-- The program counter after a completed instruction, from the state after the fetch. -/
def pcAfter (i : Instr) (s : State) : Addr :=
  match i with
  | .jmpu target => target
  | .jmpc target j => if s.flag j = true then target else s.pc
  | _ => s.pc

/-- Everything an instruction can do to the control state. Either it latches its first access out of range, and besides
that changes only the cache; or all its accesses are in range, and it completes: its cost is added, the run flag falls
only for HALT, the program counter changes only for JMP, and the fault latch, the program, the capacity and the sizes of
the register files stay. -/
theorem exec_control {i : Instr} (h : exec i s = .next t) :
    (∃ c e, (registerAccesses i).find? s.outside = some e ∧ t = (s.setCache c).raise e) ∨
      ((registerAccesses i).find? s.outside = none ∧ t.fault = s.fault ∧ t.cost = s.cost + cost i ∧
        t.running = (if i = .halt then false else s.running) ∧ t.pc = pcAfter i s ∧ t.prog = s.prog ∧
        t.cacheCap = s.cacheCap ∧ t.nreg = s.nreg ∧ t.nstat = s.nstat) := by
  cases i with
  | nop => cases h; exact .inr ⟨rfl, rfl, rfl, rfl, rfl, rfl, rfl, rfl, rfl⟩
  | halt => cases h; exact .inr ⟨rfl, rfl, rfl, rfl, rfl, rfl, rfl, rfl, rfl⟩
  | jmpu target => cases h; exact .inr ⟨rfl, rfl, rfl, rfl, rfl, rfl, rfl, rfl, rfl⟩
  | cmp a b d | cne a b d =>
    rcases binOp_statusWrite_inversion h with ⟨c, v, ha, hb, ho, rfl⟩ | ⟨c, e, he, rfl⟩
    · refine .inr ⟨?_, rfl, rfl, rfl, rfl, rfl, rfl, rfl, by simp⟩
      simp only [registerAccesses, find_outside_destination ha hb, ho]
      rfl
    · exact .inl ⟨c, e, he, rfl⟩
  | add a b d | sub a b d | mult a b d =>
    rcases binOp_regWrite_inversion h with ⟨c, v, ha, hb, ho, rfl⟩ | ⟨c, e, he, rfl⟩
    · refine .inr ⟨?_, rfl, rfl, rfl, rfl, rfl, rfl, by simp, rfl⟩
      simp only [registerAccesses, find_outside_destination ha hb, ho]
      rfl
    · exact .inl ⟨c, e, he, rfl⟩
  | jmpc target j =>
    rcases Nat.lt_or_ge j s.nstat with hj | hj
    · rw [exec, execJmpc_of_lt hj] at h; cases h
      refine .inr ⟨by simp [registerAccesses, State.outside, hj], ?_⟩
      cases hf : s.flag j <;> simp [pcAfter, hf, cost]
    · rw [exec, execJmpc_of_le hj] at h; cases h
      exact .inl ⟨s.cache, statusIndexError j, by simp [registerAccesses, State.outside, hj, statusIndexError], rfl⟩
  | load addr d =>
    rcases Nat.lt_or_ge d s.nreg with hd | hd
    · rw [exec, execLoad_of_lt hd] at h; cases h
      exact .inr ⟨by simp [registerAccesses, State.outside, hd], by simp [pcAfter, cost]⟩
    · rw [exec, execLoad_of_le hd] at h; cases h
      exact .inl ⟨s.cache, dataIndexError d, by simp [registerAccesses, State.outside, hd, dataIndexError], rfl⟩
  | store r addr =>
    rcases Nat.lt_or_ge r s.nreg with hr | hr
    · obtain ⟨v, c, -, hs⟩ := execStore_of_lt (addr := addr) hr
      rw [exec, hs] at h; cases h
      exact .inr ⟨by simp [registerAccesses, State.outside, hr], by simp [pcAfter, cost]⟩
    · rw [exec, execStore_of_le hr] at h; cases h
      exact .inl ⟨s.cache, dataIndexError r, by simp [registerAccesses, State.outside, hr, dataIndexError], rfl⟩

end Sys2Proof.Machine
end

