-- ==== Sys2Proof/Laws/Run.lean ====
section
/-! SUPPORT. The host's run and the run with a snapshot, one step at a time. -/

namespace Sys2Proof.Machine

/-- A run of any machine goes on from the next state of its first step. -/
theorem run_succ_of_next (M : Host.Core) {s t : M.State} (h : M.step s = .next t) (n : Nat) :
    M.run (n + 1) s = M.run n t := by simp [Host.Core.run, h]

/-- A run of any machine that comes to a next state starts with a step that has one. -/
theorem run_succ_next (M : Host.Core) {s t : M.State} {n : Nat} (h : M.run (n + 1) s = .next t) :
    ∃ u, M.step s = .next u ∧ M.run n u = .next t := by
  simp only [Host.Core.run] at h
  split at h
  · exact ⟨_, ‹_›, h⟩
  · cases h
  · cases h

/-- `run_succ_next` for this machine. -/
theorem core_run_succ_next {s t : State} {n : Nat} (h : Host.Core.run core (n + 1) s = .next t) :
    ∃ u, step s = .next u ∧ Host.Core.run core n u = .next t := run_succ_next core h

theorem runFor_succ_of_next {s t : State} (h : step s = .next t) (fuel : Nat) :
    runFor (fuel + 1) s = runFor fuel t := by simp [runFor, h]

theorem runFor_succ_of_fault {s : State} {f : Fault} (h : step s = .fault f) (fuel : Nat) :
    runFor (fuel + 1) s = .ended f s := by simp [runFor, h]

end Sys2Proof.Machine
end

