-- ==== Sys2Proof/Tests/Slice0.lean ====
section
/-! SUPPORT. The model's own tests. Expected results are those of 95_test_vectors.md (the vector is named) or are worked
out by hand from the rule named; the last part shows, for each statement of Obligations.lean with hypotheses, a concrete
case of every clause that meets them. -/

namespace Sys2Proof.Tests

open Sys2Proof Sys2Proof.Machine

/-! ### Helpers -/

/-- What a next state shows under `f`; `none` for a fault or a refusal. -/
def seen {α : Type} (f : State → α) : Host.Outcome State Fault Refusal → Option α
  | .next s => some (f s)
  | .fault _ => none
  | .refused _ => none

/-- A fresh machine of the reference configuration with some registers set and some entries loaded. -/
def machine (x : List (Nat × Value)) (entries : List Entry) : State :=
  (x.foldl (fun s e => s.setReg e.1 e.2) State.reset).loadProgram entries

/-- A fresh machine with one instruction at address 0. -/
def one (x : List (Nat × Value)) (i : Instr) : State := machine x [.instr i]

/-- The text decoder's answer for a line at line number 1, with the default sentinel. -/
def text (line : String) : Except ValidationError Instr := decodeTextLine litMark line.toList 1

/-- The binary decoder's answer for a line at line number 1, with the default table. -/
def binary (line : String) : Except ValidationError Instr := decodeBinaryLine OpMap.default line.toList 1

/-! ### Checks that refuse -/

theorem test_config_refuses_no_data_register : Config.wellFormed ⟨0, 16, 4⟩ = false := by decide
theorem test_config_refuses_no_status_register : Config.wellFormed ⟨16, 0, 4⟩ = false := by decide
theorem test_config_accepts_no_cache : Config.wellFormed ⟨1, 1, 0⟩ = true := by decide
theorem test_opmap_refuses_a_repeated_opcode : ¬ OpMap.WellFormed fun _ => 0x0#4 := by decide
theorem test_opmap_default_is_well_formed : OpMap.default.WellFormed := by decide
theorem test_sentinel_refuses_digit_minus_blank :
    litMarkOk '7' = false ∧ litMarkOk '-' = false ∧ litMarkOk ' ' = false ∧ litMarkOk '\t' = false := by decide
theorem test_sentinel_default_is_ok : litMarkOk litMark = true := by decide
theorem test_encodable_refuses_literal : (Src.lit 3).encodable = false := by decide
theorem test_encodable_refuses_register_16 : (Src.reg 16).encodable = false := by decide
theorem test_encodable_refuses_ill_formed_operands :
    Instr.encodable (.cmp (.lit 0) (.reg 0) 0) = false ∧ Instr.encodable (.cne (.reg 0) (.lit 0) 0) = false ∧
      Instr.encodable (.add (.reg 16) (.reg 0) 0) = false ∧ Instr.encodable (.sub (.reg 0) (.reg 16) 0) = false ∧
      Instr.encodable (.mult (.reg 0) (.reg 0) 16) = false ∧ Instr.encodable (.jmpc 16 0) = false ∧
      Instr.encodable (.jmpc 0 16) = false ∧ Instr.encodable (.jmpu 16) = false ∧
      Instr.encodable (.load 16 0) = false ∧ Instr.encodable (.load 0 16) = false ∧
      Instr.encodable (.store 16 0) = false ∧ Instr.encodable (.store 0 16) = false := by decide
theorem test_inRange_refuses_ill_formed_indices :
    (Src.reg 16).inRange 16 = false ∧ Instr.inRange 16 8 (.cmp (.reg 0) (.reg 0) 8) = false ∧
      Instr.inRange 16 8 (.cne (.reg 16) (.reg 0) 0) = false ∧ Instr.inRange 16 8 (.add (.reg 0) (.reg 16) 0) = false ∧
      Instr.inRange 16 8 (.sub (.lit 0) (.lit 0) 16) = false ∧ Instr.inRange 16 8 (.mult (.reg 16) (.lit 0) 0) = false ∧
      Instr.inRange 16 8 (.jmpc 0 8) = false ∧ Instr.inRange 16 8 (.load 0 16) = false ∧
      Instr.inRange 16 8 (.store 16 0) = false := by decide

/-! ### Binary decoding -/

/-- B1, B2. -/
theorem test_binary_nop : binary "0000000000000000" = .ok .nop ∧ binary "0000111111111111" = .ok .nop := ⟨rfl, rfl⟩
/-- B3. -/
theorem test_binary_halt : binary "0001000000000000" = .ok .halt := rfl
/-- B4. -/
theorem test_binary_cmp : binary "0010000100110000" = .ok (.cmp (.reg 1) (.reg 3) 0) := rfl
/-- B5. -/
theorem test_binary_cne : binary "0011000100110010" = .ok (.cne (.reg 1) (.reg 3) 2) := rfl
/-- B6. -/
theorem test_binary_jmpc : binary "0100011000000000" = .ok (.jmpc 6 0) := rfl
/-- B7. -/
theorem test_binary_jmpu : binary "0101000011111111" = .ok (.jmpu 0) := rfl
/-- B8. -/
theorem test_binary_load : binary "0110011100101111" = .ok (.load 7 2) := rfl
/-- B9. -/
theorem test_binary_store : binary "0111000010010000" = .ok (.store 0 9) := rfl
/-- B10. -/
theorem test_binary_add : binary "1000000100100011" = .ok (.add (.reg 1) (.reg 2) 3) := rfl
/-- B11. -/
theorem test_binary_sub : binary "1001000100100001" = .ok (.sub (.reg 1) (.reg 2) 1) := rfl
/-- B12. -/
theorem test_binary_mult : binary "1010000000010000" = .ok (.mult (.reg 0) (.reg 1) 0) := rfl
/-- B13, B14: opcodes 0xB and 0xF. -/
theorem test_binary_refuses_unassigned_opcodes :
    binary "1011000000000000" = .error ⟨1, .unrecognizedBinaryOpcode⟩ ∧
      binary "1111111111111111" = .error ⟨1, .unrecognizedBinaryOpcode⟩ := ⟨rfl, rfl⟩
/-- B15, B16, B18: the length is checked first. -/
theorem test_binary_refuses_wrong_length :
    binary "100000010010001" = .error ⟨1, .lineLength⟩ ∧ binary "10000001001000111" = .error ⟨1, .lineLength⟩ ∧
      binary "101100000000000" = .error ⟨1, .lineLength⟩ := ⟨rfl, rfl, rfl⟩
/-- B17. -/
theorem test_binary_refuses_letter : binary "1000000100100o11" = .error ⟨1, .fieldNotBinary 4⟩ := rfl
/-- The table's bit numbering (log 21), words written out from the rows of spec/opcode_table.json. -/
theorem test_decodeTableWord :
    decodeTableWord 16 0x0000 = some .nop ∧ decodeTableWord 16 0x672F = some (.load 7 2) ∧
      decodeTableWord 16 0x8123 = some (.add (.reg 1) (.reg 2) 3) ∧ decodeTableWord 16 0xB000 = none := by decide
/-- 30_encoding.md R90: the encoder writes the discarded fields as zero. -/
theorem test_encode :
    encode OpMap.default .halt = 0x1000#16 ∧ encode OpMap.default (.jmpc 6 0) = 0x4600#16 ∧
      encode OpMap.default (.load 7 2) = 0x6720#16 ∧ encode OpMap.default (.sub (.reg 1) (.reg 2) 1) = 0x9121#16 := by
  decide

/-! ### Text decoding -/

/-- X1, X2, X18: registers, literals, leading zeros. -/
theorem test_text_sources :
    text "ADD 1 2 3" = .ok (.add (.reg 1) (.reg 2) 3) ∧ text "ADD #5 #-3 0" = .ok (.add (.lit 5) (.lit (-3)) 0) ∧
      text "CMP 007 #00 0" = .ok (.cmp (.reg 7) (.lit 0) 0) := ⟨rfl, rfl, rfl⟩
/-- X17, X19, X20, X21. -/
theorem test_text_accepts :
    text "  NOP  " = .ok .nop ∧ text "JMP 6 0" = .ok (.jmpc 6 0) ∧ text "STORE 0 9" = .ok (.store 0 9) ∧
      text "ADD 1 2 99" = .ok (.add (.reg 1) (.reg 2) 99) := ⟨rfl, rfl, rfl, rfl⟩
/-- X3, X6, X7, X11. -/
theorem test_text_refuses_wrong_arity :
    text "ADD 1 2" = .error ⟨1, .wrongArity⟩ ∧ text "JMP" = .error ⟨1, .wrongArity⟩ ∧
      text "JMP 1 2 3" = .error ⟨1, .wrongArity⟩ ∧ text "HALT 0" = .error ⟨1, .wrongArity⟩ := ⟨rfl, rfl, rfl, rfl⟩
/-- X5, X12, X13. -/
theorem test_text_refuses_opcode :
    text "add 1 2 3" = .error ⟨1, .unrecognizedOpcode⟩ ∧ text "MOV 1 2" = .error ⟨1, .unrecognizedOpcode⟩ ∧
      text "" = .error ⟨1, .unrecognizedOpcode⟩ := ⟨rfl, rfl, rfl⟩
/-- X4, X8, X9, X10. -/
theorem test_text_refuses_literal_or_sign :
    text "ADD 1 2 #3" = .error ⟨1, .badOperand 3⟩ ∧ text "JMP #1" = .error ⟨1, .badOperand 1⟩ ∧
      text "LOAD #1 2" = .error ⟨1, .badOperand 1⟩ ∧ text "LOAD 1 -2" = .error ⟨1, .badOperand 2⟩ :=
  ⟨rfl, rfl, rfl, rfl⟩
/-- X14, X15, X16. -/
theorem test_text_refuses_other_tokens :
    text "SUB 1 +1 1" = .error ⟨1, .badOperand 2⟩ ∧ text "ADD 1 # 2" = .error ⟨1, .badOperand 2⟩ ∧
      text "JMP 6, 0" = .error ⟨1, .badOperand 1⟩ := ⟨rfl, rfl, rfl⟩
/-- X22: the whole load fails at line 3. -/
theorem test_text_program_fails_at_line_3 :
    decodeProgram OpMap.default litMark .text ["NOP".toList, "NOP".toList, "MOV 1 2".toList, "HALT".toList] =
      .error ⟨3, .unrecognizedOpcode⟩ := rfl

/-! ### Registers, cache, initial data -/

/-- Q1 rows 8 and 9, from a cache that holds register 4 and not register 2. -/
theorem test_regWrite_updates_in_place :
    (regWrite 4 99 { machine [(4, 14)] [] with cache := [(3, 13), (4, 14), (1, 11)] }).bind
      (fun _ s => (regWrite 2 7 s).bind fun _ t => .done (t.cache, t.reg 4, t.reg 2) State.reset) =
      .done ([(3, 13), (4, 99), (1, 11)], 99, 7) State.reset := by decide
/-- Q1 rows 5 and 6: a miss at capacity evicts the first, a hit moves its entry. -/
theorem test_regFetch_evicts_and_promotes :
    (regFetch 4 { machine [(4, 14)] [] with cache := [(0, 10), (1, 11), (2, 12), (3, 13)] }).bind
      (fun v s => (regFetch 1 s).bind fun w t => .done (v, w, t.cache) State.reset) =
      .done (14, 11, [(2, 12), (3, 13), (4, 14), (1, 11)]) State.reset := by decide
/-- Q3: with capacity 0 the cache stays empty. -/
theorem test_regFetch_without_cache :
    (regFetch 0 { machine [(0, 10)] [] with cacheCap := 0 }).bind (fun v s => .done (v, s.cache) State.reset) =
      .done (10, []) State.reset := by decide
/-- I1, I2. -/
theorem test_initial_data :
    ((State.reset.loadInitialLines ["0 0".toList, "1 5".toList, "1 -7".toList]).map fun s => (s.reg 0, s.reg 1, s.cache)) =
      .ok (0, -7, []) := rfl
/-- I3 to I6. -/
theorem test_initial_data_refuses :
    State.reset.loadInitialLines ["16 1".toList] = .error (.indexOutOfRange 16) ∧
      State.reset.loadInitialLines ["1 five".toList] = .error .valueNotInteger ∧
      State.reset.loadInitialLines ["1".toList] = .error .notTwoTokens ∧
      State.reset.loadInitialLines ["-1 3".toList] = .error .indexNotInteger := ⟨rfl, rfl, rfl, rfl⟩

/-! ### One step of each instruction -/

/-- Y1. -/
theorem test_nop :
    seen (fun t => (t.pc, t.cost, t.cache, t.running))
      (step { one [] .nop with pc := 3, cost := 8, cache := [(1, 5)], prog := [(3, .instr .nop)] }) =
      some (4, 8, [(1, 5)], true) := by decide
/-- Y2. -/
theorem test_halt :
    seen (fun t => (t.pc, t.cost, t.running, t.terminal?))
      (step { one [] .halt with pc := 6, cost := 96, prog := [(6, .instr .halt)] }) =
      some (7, 96, false, some .halted) := by decide
/-- K9: the destination is a status register. -/
theorem test_cmp :
    seen (fun t => (t.flag 3, t.reg 3, t.cache, t.pc, t.cost))
      (step (one [(1, 5), (2, 5), (3, -2)] (.cmp (.reg 1) (.reg 2) 3))) =
      some (true, -2, [(1, 5), (2, 5)], 1, 4) := by decide
/-- K10: the destination is out of range, after both fetches. -/
theorem test_cmp_raises :
    seen (fun t => (t.fault, t.cache, t.pc, t.cost)) (step (one [(1, 5), (2, 5)] (.cmp (.reg 1) (.reg 2) 16))) =
      some (some ⟨.status, 16⟩, [(1, 5), (2, 5)], 1, 0) := by decide
/-- K3. -/
theorem test_cne :
    seen (fun t => (t.flag 4, t.cache, t.cost)) (step (one [(1, 5), (3, -2)] (.cne (.reg 1) (.reg 3) 4))) =
      some (true, [(1, 5), (3, -2)], 4) := by decide
/-- K11: operand 1 out of range. -/
theorem test_cne_raises :
    seen (fun t => (t.fault, t.cache, t.pc, t.cost)) (step (one [(1, 5)] (.cne (.reg 16) (.reg 1) 0))) =
      some (some ⟨.data, 16⟩, [], 1, 0) := by decide
/-- A1: the destination is also a source and is cached. -/
theorem test_add :
    seen (fun t => (t.reg 0, t.cache, t.pc, t.cost)) (step (one [(0, 10), (1, 5)] (.add (.reg 0) (.reg 1) 0))) =
      some (15, [(0, 15), (1, 5)], 1, 4) := by decide
/-- A19: operand 2 out of range, after operand 1 was fetched. -/
theorem test_add_raises :
    seen (fun t => (t.fault, t.cache, t.reg 3, t.pc, t.cost)) (step (one [(0, 10)] (.add (.reg 0) (.reg 16) 3))) =
      some (some ⟨.data, 16⟩, [(0, 10)], 0, 1, 0) := by decide
/-- A8: operand 1 minus operand 2. -/
theorem test_sub :
    seen (fun t => (t.reg 3, t.cache)) (step (one [(0, 10), (1, 5)] (.sub (.reg 1) (.reg 0) 3))) =
      some (-5, [(1, 5), (0, 10)]) := by decide
/-- A18: no wrap. -/
theorem test_sub_is_exact :
    seen (fun t => t.reg 3) (step (one [] (.sub (.lit (-9223372036854775808)) (.lit 1) 3))) =
      some (-9223372036854775809) := by decide
/-- A13. -/
theorem test_mult :
    seen (fun t => (t.reg 3, t.cost)) (step (one [(0, 10), (2, -3)] (.mult (.reg 0) (.reg 2) 3))) =
      some (-30, 4) := by decide
/-- A16: no overflow. -/
theorem test_mult_is_exact :
    seen (fun t => t.reg 3) (step (one [] (.mult (.lit 4294967296) (.lit 4294967296) 3))) =
      some 18446744073709551616 := by decide
/-- M3: a cached destination is updated in place. -/
theorem test_load :
    seen (fun t => (t.reg 2, t.cache, t.mem, t.pc, t.cost))
      (step { one [(2, 8)] (.load 7 2) with mem := [(7, 42)], cache := [(2, 8)] }) =
      some (42, [(2, 42)], [(7, 42)], 1, 2) := by decide
/-- M2: an absent address reads 0 and gets no entry. -/
theorem test_load_absent :
    seen (fun t => (t.reg 2, t.mem, t.cache)) (step { one [(2, 8)] (.load 8 2) with mem := [(7, 42)] }) =
      some (0, [(7, 42)], []) := by decide
/-- M6. -/
theorem test_store :
    seen (fun t => (t.mem, t.cache, t.pc, t.cost)) (step { one [(0, 15)] (.store 0 9) with mem := [(7, 42)] }) =
      some ([(7, 42), (9, 15)], [(0, 15)], 1, 2) := by decide
/-- M8: storing 0 makes an entry that holds 0. -/
theorem test_store_zero :
    seen (fun t => (t.mem, t.cache)) (step { one [] (.store 1 9) with mem := [(7, 42)] }) =
      some ([(7, 42), (9, 0)], [(1, 0)]) := by decide
/-- J2 and J3. -/
theorem test_jmpc :
    seen (fun t => (t.pc, t.cost))
      (step { one [] .nop with pc := 3, cost := 12, prog := [(3, .instr (.jmpc 6 0))], status := [true, false] }) =
      some (6, 16) ∧
    seen (fun t => (t.pc, t.cost))
      (step { one [] .nop with pc := 3, cost := 12, prog := [(3, .instr (.jmpc 6 0))], status := [false, true] }) =
      some (4, 16) := by decide
/-- J5. -/
theorem test_jmpc_raises :
    seen (fun t => (t.fault, t.pc, t.cost)) (step { one [] .nop with pc := 3, prog := [(3, .instr (.jmpc 6 16))] }) =
      some (some ⟨.status, 16⟩, 4, 0) := by decide
/-- J1. -/
theorem test_jmpu :
    seen (fun t => (t.pc, t.cost)) (step { one [] .nop with pc := 4, cost := 16, prog := [(4, .instr (.jmpu 0))] }) =
      some (0, 20) := by decide
/-- E2, its second cycle: a Data entry changes only `pc`. -/
theorem test_data_entry :
    step { machine [] [.instr .nop, .data 0xBEEF#16] with pc := 1 } =
      .next { machine [] [.instr .nop, .data 0xBEEF#16] with pc := 2 } := rfl
/-- E1: an empty program has run off its end at once. -/
theorem test_empty_program : State.reset.terminal? = some .ranOffEnd ∧ seen id (step State.reset) = none := by decide
/-- A word placed at the next fetch address runs first (log 20): B10 on registers that hold 0. -/
theorem test_withFetchWord :
    seen (fun t => (t.pc, t.cost, t.cache)) (step (State.reset.withFetchWord 16 0x8123)) =
      some (1, 4, [(1, 0), (2, 0)]) := by decide

/-! ### Witnesses: the hypotheses of each statement can be met -/

/-- A machine whose cache holds a register. -/
def warm (i : Instr) : State := { one [(1, 5)] i with cache := [(1, 5)] }

/-- A machine whose program is a Data entry and then HALT. -/
def dataThenHalt : State := machine [] [.data 0xBEEF#16, .instr .halt]

theorem coherent_warm : Cache.Coherent (warm .nop).cacheCap (warm .nop).x (warm .nop).cache :=
  ⟨by decide, by decide, by decide⟩

theorem inv_warm (i : Instr) : (warm i).Inv :=
  ⟨coherent_warm, List.Pairwise.nil, List.pairwise_singleton _ _⟩

theorem inv_one (i : Instr) : (one [(1, 5)] i).Inv :=
  ⟨Cache.Coherent.nil, List.Pairwise.nil, List.pairwise_singleton _ _⟩

theorem test_witness_EncodedInstructionDecodesBack :
    OpMap.default.WellFormed ∧ Instr.encodable (.mult (.reg 15) (.reg 0) 15) = true := by decide

/-- One kept field (k = 1 of 2) and one discarded field (k = 2). -/
theorem test_witness_DecodedWordKeepsItsFields :
    decode16 OpMap.default 0x672F#16 = some (.load 7 2) ∧ 1 < (Instr.load 7 2).label.arity ∧
      (Instr.load 7 2).label.arity ≤ 2 := by decide

theorem test_witness_DiscardedFieldsAreIgnored :
    wordField 0x50FF#16 12 = wordField 0x5000#16 12 ∧
      ∀ l, OpMap.default.labelOf (wordField 0x50FF#16 12) = some l → ∀ k, k < l.arity →
        wordField 0x50FF#16 (8 - 4 * k) = wordField 0x5000#16 (8 - 4 * k) := by
  refine ⟨by decide, fun l hl k hk => ?_⟩
  obtain rfl : Label.jmpu = l := Option.some.inj ((by decide : some Label.jmpu = _).trans hl)
  obtain rfl : k = 0 := Nat.lt_one_iff.mp hk
  decide

theorem test_witness_UnassignedOpcodeFailsTheLoad :
    (∀ l, OpMap.default l ≠ wordField 0xB000#16 12) ∧ (∀ l, OpMap.default l ≠ wordField 0xFFFF#16 12) ∧
      lineOfWord 0xB000#16 ∈ [lineOfWord 0x0000#16, lineOfWord 0xB000#16] :=
  ⟨fun l => by cases l <;> decide, fun l => by cases l <;> decide, by decide⟩

/-- A short line; a bad character at index 0 and at index 15; a line of a word. -/
theorem test_witness_BinaryLineDecoderFollowsItsChecks :
    "100000010010001".toList.length ≠ 16 ∧
      ("x000000000000000".toList.length = 16 ∧ "x000000000000000".toList[0]? = some 'x' ∧ isBit 'x' = false) ∧
      ("000000000000000x".toList.length = 16 ∧ "000000000000000x".toList[15]? = some 'x' ∧
        ("000000000000000x".toList.take 15).all isBit = true) ∧
      "1111111111111111".toList = lineOfWord 0xFFFF#16 ∧
      (lineOfWord 0xFFFF#16).length = 16 ∧ (lineOfWord 0xFFFF#16).all isBit = true :=
  ⟨by decide, ⟨by decide, by decide, by decide⟩, ⟨by decide, by decide, by decide⟩, rfl, rfl, rfl⟩

theorem test_witness_TextLineDecodesBack : litMarkOk litMark = true := by decide

/-- No token; an unknown token; a wrong arity; operand 3 the first to fail; no operand that fails. -/
theorem test_witness_TextDecoderRejectsByTheFirstFailedCheck :
    tokensOf "  ".toList = [] ∧
      (tokensOf "MOV 1".toList = ["MOV".toList, "1".toList] ∧ mnemonicOf "MOV".toList = none) ∧
      (tokensOf "JMP".toList = ["JMP".toList] ∧ mnemonicOf "JMP".toList = some .JMP ∧ 0 ∉ textArities .JMP) ∧
      (tokensOf "ADD 1 #2 #3".toList = ["ADD".toList, "1".toList, "#2".toList, "#3".toList] ∧
        mnemonicOf "ADD".toList = some .ADD ∧ 3 ∈ textArities .ADD ∧
        operandMatches litMark .ADD 1 "1".toList = true ∧ operandMatches litMark .ADD 2 "#2".toList = true ∧
        operandMatches litMark .ADD 3 "#3".toList = false ∧ operandMatches litMark .ADD 3 "3".toList = true) := by decide

/-- A load that fails, with a good line before the first malformed one, and a load that does not. -/
theorem test_witness_FirstMalformedLineFailsTheWholeLoad :
    decodeProgram OpMap.default litMark .text ["NOP".toList, "HALT 0".toList, "MOV".toList] = .error ⟨2, .wrongArity⟩ ∧
      decodeProgram OpMap.default litMark .binary [lineOfWord 0x1000#16] = .ok [.halt] := ⟨rfl, rfl⟩

theorem test_witness_TextAndBinaryTwinsRunAlike :
    OpMap.default.WellFormed ∧ litMarkOk litMark = true ∧
      decodeProgram OpMap.default litMark .text ["JMP  3".toList, "HALT".toList] = .ok [.jmpu 3, .halt] ∧
      [0x53FF#16, 0x1234#16].map (decode16 OpMap.default) = [Instr.jmpu 3, .halt].map some ∧
      (∀ i ∈ [Instr.jmpu 3, .halt], i.encodable = true) := ⟨by decide, by decide, rfl, by decide, by decide⟩

/-- A state that fails the continuation test; a Data entry; an instruction that completes, one that raises, a jump. -/
theorem test_witness_StepRunsTheFetchedEntry :
    FiniteMap.find State.reset.prog State.reset.pc = none ∧
      (dataThenHalt.fault = none ∧ dataThenHalt.running = true ∧
        FiniteMap.find dataThenHalt.prog dataThenHalt.pc = some (.data 0xBEEF#16)) ∧
      FiniteMap.find (one [] (.load 7 2)).prog 0 = some (.instr (.load 7 2)) ∧
      seen State.fault (exec (.load 7 2) { one [] (.load 7 2) with pc := 1 }) = some none ∧
      seen State.fault (exec (.load 7 16) { one [] (.load 7 16) with pc := 1 }) = some (some ⟨.data, 16⟩) ∧
      seen State.pc (exec (.jmpu 9) { one [] (.jmpu 9) with pc := 1 }) = some 9 := by decide

theorem test_witness_LoadedWordIsRunByTheNextStep :
    decodeTableWord 16 0xA010 = some (.mult (.reg 0) (.reg 1) 0) ∧ State.reset.fault = none ∧
      State.reset.running = true := by decide

/-- The halted clause's premises: a step to a state that is halted. -/
theorem test_witness_StepStopsExactlyInTheTerminalCases :
    ∃ t, step (one [] .halt) = .next t ∧ step t = .fault .halted := ⟨_, rfl, rfl⟩

theorem test_witness_EveryNonTerminalStateSteps : (one [] .nop).terminal? = none := by decide

/-- A Data entry, an instruction that completes, one that raises. -/
theorem test_witness_StepAddsTheFixedCost :
    (∃ t, step dataThenHalt = .next t ∧ FiniteMap.find dataThenHalt.prog dataThenHalt.pc = some (.data 0xBEEF#16)) ∧
      (∃ t, step (one [] (.store 0 9)) = .next t ∧ t.fault = none) ∧
      (∃ t, step (one [] (.store 16 9)) = .next t ∧ t.fault ≠ none) :=
  ⟨⟨_, rfl, rfl⟩, ⟨_, rfl, rfl⟩, ⟨_, rfl, by decide⟩⟩

theorem test_witness_CostIsNeverUsedForControl :
    (∃ t, step (one [] (.jmpc 6 0)) = .next t) ∧ step State.reset = .fault .ranOffEnd := ⟨⟨_, rfl⟩, rfl⟩

theorem test_witness_ParametersAndProgramNeverChange : ∃ t, step (one [] (.store 15 0)) = .next t := ⟨_, rfl⟩

theorem test_witness_OnlyHaltClearsTheRunFlag : ∃ t, step (one [] .halt) = .next t ∧ t.running = false := ⟨_, rfl, rfl⟩

/-- The first index out of range; a hit at the last index; a miss below capacity and one at capacity; five distinct
fetches for capacity 4. -/
theorem test_witness_RegFetchFollowsTheLruRule :
    State.reset.nreg ≤ 16 ∧ (15 < State.reset.nreg ∧ Cache.find [(15, (7 : Value))] 15 = some 7) ∧
      (Cache.find State.reset.cache 15 = none ∧ State.reset.cache.length < State.reset.cacheCap) ∧
      ({ State.reset with cacheCap := 0 }.cacheCap ≤ State.reset.cache.length) ∧
      (State.reset.cache = [] ∧ [3, 0, 15, 7, 1].Nodup ∧ (∀ r ∈ [3, 0, 15, 7, 1], r < State.reset.nreg) ∧
        [3, 0, 15, 7, 1].length = State.reset.cacheCap + 1) := by decide

theorem test_witness_RegWriteUpdatesInPlace : State.reset.nreg ≤ 16 ∧ 15 < State.reset.nreg := by decide

theorem test_witness_StatusAccessIsBoundsChecked : State.reset.nstat ≤ 16 ∧ 15 < State.reset.nstat := by decide

/-- A present cell that holds 0, an absent one, a LOAD. -/
theorem test_witness_MemReadDefaultsToZeroAndChangesNothing :
    FiniteMap.find { State.reset with mem := [(7, 0)] }.mem 7 = some 0 ∧ FiniteMap.find State.reset.mem 7 = none ∧
      ∃ t, exec (.load 7 15) State.reset = .next t := ⟨rfl, rfl, _, rfl⟩

theorem test_witness_ResolveReadsLiteralOrRegister :
    Cache.Coherent (warm .nop).cacheCap (warm .nop).x (warm .nop).cache ∧ (Src.reg 15).inRange (warm .nop).nreg = true ∧
      (Src.reg 16).inRange (warm .nop).nreg = false := ⟨coherent_warm, by decide, by decide⟩

/-- Entries in range, an index twice; and a bad entry between two others. -/
theorem test_witness_InitialDataSetsRegistersInOrder :
    State.reset.cache = [] ∧ (∀ e ∈ [((15 : Nat), (5 : Value)), (0, 1), (15, -7)], e.1 < State.reset.nreg) ∧
      State.reset.nreg ≤ ((16 : Nat), (1 : Value)).1 := by decide

/-- One line for each clause. -/
theorem test_witness_InitialDataLineIsCheckedAndApplied :
    (tokensOf "1".toList).length ≠ 2 ∧
      (tokensOf "-1 3".toList = ["-1".toList, "3".toList] ∧ bareInteger "-1".toList = none) ∧
      (tokensOf "1 five".toList = ["1".toList, "five".toList] ∧ bareInteger "1".toList = some 1 ∧
        signedInteger "five".toList = none) ∧
      (tokensOf "16 -7".toList = ["16".toList, "-7".toList] ∧ bareInteger "16".toList = some 16 ∧
        signedInteger "-7".toList = some (-7) ∧ State.reset.nreg ≤ 16) ∧
      (tokensOf "15 -7".toList = ["15".toList, "-7".toList] ∧ bareInteger "15".toList = some 15 ∧
        15 < State.reset.nreg ∧ State.reset.cache = []) ∧
      "15 -7".toList = decimal 15 ++ ' ' :: signedDecimal (-7) := by decide

theorem test_witness_LoadedMachineHasTheInvariant :
    ∃ s, (State.construct ⟨1, 1, 0⟩).loadInitialData [(0, -3)] = .ok s := ⟨_, rfl⟩

theorem test_witness_EveryStepKeepsTheInvariant :
    (warm (.add (.reg 1) (.reg 0) 1)).Inv ∧ ∃ t, step (warm (.add (.reg 1) (.reg 0) 1)) = .next t :=
  ⟨inv_warm _, _, rfl⟩

/-- A loaded machine and a machine that has taken a step. -/
theorem test_witness_FetchReturnsTheRegisterInEveryReachableState :
    (∃ s, Reachable s ∧ 15 < s.nreg) ∧ ∃ s, Reachable s ∧ s.cache = [(0, 0)] ∧ 0 < s.nreg := by
  have h : Reachable (State.reset.loadProgram [.instr (.store 0 9)]) := .loaded Config.reference [] _ _ rfl
  exact ⟨⟨_, h, by decide⟩, _, .stepped _ _ h rfl, rfl, by decide⟩

/-- Two machines with different coherent caches, one that steps and one that has run off its end. -/
theorem test_witness_NoProgramObservesTheCache :
    ((warm (.store 1 9)).Inv ∧ (one [(1, 5)] (.store 1 9)).Inv ∧
        (warm (.store 1 9)).SameButCache (one [(1, 5)] (.store 1 9)) ∧ ∃ t, step (warm (.store 1 9)) = .next t) ∧
      (State.reset.Inv ∧ { State.reset with cacheCap := 1 }.Inv ∧
        State.reset.SameButCache { State.reset with cacheCap := 1 } ∧ step State.reset = .fault .ranOffEnd) :=
  ⟨⟨inv_warm _, inv_one _, rfl, _, rfl⟩, ⟨Cache.Coherent.nil, List.Pairwise.nil, List.Pairwise.nil⟩,
    ⟨Cache.Coherent.nil, List.Pairwise.nil, List.Pairwise.nil⟩, rfl, rfl⟩

theorem test_witness_NopChangesNothing :
    (one [] .nop).fault = none ∧ (one [] .nop).running = true ∧
      FiniteMap.find (one [] .nop).prog (one [] .nop).pc = some (.instr .nop) := by decide

theorem test_witness_HaltStopsTheRun :
    (one [] .halt).fault = none ∧ (one [] .halt).running = true ∧
      FiniteMap.find (one [] .halt).prog (one [] .halt).pc = some (.instr .halt) := by decide

/-- A coherent cache that holds something, the last index of each file. -/
theorem test_witness_CompareWritesTheCondition :
    Cache.Coherent (warm .nop).cacheCap (warm .nop).x (warm .nop).cache ∧ (Src.reg 15).inRange (warm .nop).nreg = true ∧
      (Src.lit (-3)).inRange (warm .nop).nreg = true ∧ 15 < (warm .nop).nstat :=
  ⟨coherent_warm, by decide, by decide, by decide⟩

theorem test_witness_ArithmeticWritesTheExactResult :
    Cache.Coherent (warm .nop).cacheCap (warm .nop).x (warm .nop).cache ∧ (Src.reg 15).inRange (warm .nop).nreg = true ∧
      (Src.lit (-3)).inRange (warm .nop).nreg = true ∧ 15 < (warm .nop).nreg :=
  ⟨coherent_warm, by decide, by decide, by decide⟩

theorem test_witness_LoadCopiesTheCell : 15 < State.reset.nreg := by decide

theorem test_witness_StoreBindsTheCell :
    Cache.Coherent (warm .nop).cacheCap (warm .nop).x (warm .nop).cache ∧ 15 < (warm .nop).nreg :=
  ⟨coherent_warm, by decide⟩

theorem test_witness_JumpSetsTheCounter : 15 < State.reset.nstat := by decide

/-- Both register files; each of the three operands out of range at the first index that is. -/
theorem test_witness_ThreeOperandFormsRaiseInOrder :
    Cache.Coherent (warm .nop).cacheCap (warm .nop).x (warm .nop).cache ∧ (warm .nop).nreg ≤ 16 ∧
      (Src.reg 15).inRange (warm .nop).nreg = true ∧ (warm .nop).outside ⟨.data, 16⟩ = true ∧
      (warm .nop).outside ⟨.status, 16⟩ = true ∧
      (((Instr.sub = .add ∨ Instr.sub = .sub ∨ Instr.sub = .mult) ∧ RegFile.data = .data)) ∧
      ((Instr.cne = .cmp ∨ Instr.cne = .cne) ∧ RegFile.status = .status) :=
  ⟨coherent_warm, by decide, by decide, by decide, by decide, ⟨.inr (.inl rfl), rfl⟩, .inr rfl, rfl⟩

theorem test_witness_LoadStoreJumpRaiseWithoutEffect : State.reset.nreg ≤ 16 ∧ State.reset.nstat ≤ 16 := by decide

/-- A step that aborts and one that does not. -/
theorem test_witness_FirstIndexOutOfRangeAbortsTheRun :
    (FiniteMap.find (one [] (.add (.reg 0) (.reg 16) 17)).prog 0 = some (.instr (.add (.reg 0) (.reg 16) 17)) ∧
        ∃ t, step (one [] (.add (.reg 0) (.reg 16) 17)) = .next t ∧ t.fault = some ⟨.data, 16⟩) ∧
      ∃ t, step (one [] .nop) = .next t ∧ t.fault = none := ⟨⟨rfl, _, rfl, rfl⟩, _, rfl, rfl⟩

theorem test_witness_ProgramsInRangeNeverAbort :
    (one [] (.jmpc 0 15)).fault = none ∧
      ∀ a i, FiniteMap.find (one [] (.jmpc 0 15)).prog a = some (.instr i) →
        i.inRange (one [] (.jmpc 0 15)).nreg (one [] (.jmpc 0 15)).nstat = true := by
  refine ⟨rfl, fun a i h => ?_⟩
  by_cases ha : a = 0
  · subst ha; cases h; decide
  · exact absurd h (by simp [one, machine, State.loadProgram, FiniteMap.ofList, FiniteMap.find, ha])

/-- Each instruction of the group, and the conditional jump's abort. -/
theorem test_witness_ControlFrame :
    (∃ t, exec .nop State.reset = .next t) ∧ (∃ t, exec .halt State.reset = .next t) ∧
      (∃ t, exec (.jmpu 6) State.reset = .next t) ∧ (∃ t, exec (.jmpc 6 15) State.reset = .next t ∧ t.fault = none) ∧
      ∃ t, exec (.jmpc 6 16) State.reset = .next t ∧ t.fault ≠ none :=
  ⟨⟨_, rfl⟩, ⟨_, rfl⟩, ⟨_, rfl⟩, ⟨_, rfl, rfl⟩, _, rfl, by decide⟩

theorem test_witness_CompareFrame :
    (∃ t, exec (.cmp (.reg 15) (.lit 0) 15) State.reset = .next t ∧ t.fault = none) ∧
      ∃ t, exec (.cne (.reg 0) (.reg 16) 0) State.reset = .next t ∧ t.fault ≠ none :=
  ⟨⟨_, rfl, rfl⟩, _, rfl, by decide⟩

theorem test_witness_ArithmeticFrame :
    (∃ t, exec (.add (.reg 15) (.lit 1) 15) State.reset = .next t ∧ t.fault = none) ∧
      (∃ t, exec (.sub (.reg 15) (.lit 1) 15) State.reset = .next t ∧ t.fault = none) ∧
      ∃ t, exec (.mult (.reg 0) (.lit 1) 16) State.reset = .next t ∧ t.fault ≠ none :=
  ⟨⟨_, rfl, rfl⟩, ⟨_, rfl, rfl⟩, _, rfl, by decide⟩

theorem test_witness_LoadFrame :
    (∃ t, exec (.load 7 15) State.reset = .next t ∧ t.fault = none) ∧
      ∃ t, exec (.load 7 16) State.reset = .next t ∧ t.fault ≠ none := ⟨⟨_, rfl, rfl⟩, _, rfl, by decide⟩

theorem test_witness_StoreFrame :
    (∃ t, exec (.store 15 7) State.reset = .next t ∧ t.fault = none) ∧
      ∃ t, exec (.store 16 7) State.reset = .next t ∧ t.fault ≠ none := ⟨⟨_, rfl, rfl⟩, _, rfl, by decide⟩

/-- A run that has not ended, one that has halted, one that ran off the end, one that aborted. -/
theorem test_witness_RunReturnsTheSnapshotOrTheError :
    (∃ t, Host.Core.run core 0 (one [] .nop) = .next t ∧ t.terminal? = none) ∧
      (∃ t, Host.Core.run core 1 (one [] .halt) = .next t ∧ t.terminal? = some .halted) ∧
      (∃ t, Host.Core.run core 1 (one [] .nop) = .next t ∧ t.terminal? = some .ranOffEnd) ∧
      ∃ t, Host.Core.run core 1 (one [] (.load 0 16)) = .next t ∧ t.terminal? = some (.aborted ⟨.data, 16⟩) :=
  ⟨⟨_, rfl, rfl⟩, ⟨_, rfl, rfl⟩, ⟨_, rfl, rfl⟩, _, rfl, rfl⟩

/-- A run, a program load of each form that is performed, one that fails, an initial-data load that fails. -/
theorem test_witness_OneLoadAndOneRunPerInstance :
    (∃ r, ({ Instance.construct Config.reference with programLoaded := true }.run 1) = .performed r) ∧
      (∃ i, (Instance.construct Config.reference).loadLines OpMap.default litMark .text ["HALT".toList] = .performed i) ∧
      (∃ i, (Instance.construct Config.reference).loadEntries [.data 0xBEEF#16] = .performed i) ∧
      (∃ i, (Instance.construct Config.reference).loadLines OpMap.default litMark .text ["MOV".toList] =
        .failed ⟨1, .unrecognizedOpcode⟩ i) ∧
      ∃ i, (Instance.construct Config.reference).loadInitialLines ["16 1".toList] = .failed (.indexOutOfRange 16) i :=
  ⟨⟨_, rfl⟩, ⟨_, rfl⟩, ⟨_, rfl⟩, ⟨_, rfl⟩, _, rfl⟩

end Sys2Proof.Tests
end

section
/-! The register file and the cache (10_state.md R31, R32): what a fetch does to the cache on a hit and on a miss, and
what a row of distinct fetches leaves in it. -/

namespace Sys2Proof.Machine

variable {s : State} {i : Nat} {v : Value}

/-! ### The cache -/

/-- A register without an entry is not found. -/
theorem Cache.find_eq_none_of_not_mem {c : Cache} (h : i ∉ c.map Prod.fst) : Cache.find c i = none := by
  cases hf : Cache.find c i with
  | none => rfl
  | some w => exact absurd (List.mem_map_of_mem (Cache.mem_of_find hf)) h

/-- With room left an insertion evicts nothing. -/
theorem Cache.insert_of_lt {c : Cache} {cap : Nat} (h : c.length < cap) (i : Nat) (v : Value) :
    Cache.insert cap c i v = c ++ [(i, v)] :=
  if_neg (by simp; omega)

/-- Without room left an insertion evicts the least recently used entry. -/
theorem Cache.insert_of_le {c : Cache} {cap : Nat} (h : cap ≤ c.length) (i : Nat) (v : Value) :
    Cache.insert cap c i v = (c ++ [(i, v)]).tail :=
  if_pos (by simp; omega)

/-! ### One fetch -/

/-- A fetch out of range. -/
theorem regFetch_of_le (hi : s.nreg ≤ i) : regFetch i s = .raised (s.raise (dataIndexError i)) :=
  regFetch_raised_iff.mpr ⟨hi, rfl⟩

/-- A hit answers the cached value and promotes the entry. -/
theorem regFetch_of_hit (hi : i < s.nreg) (hf : Cache.find s.cache i = some v) :
    regFetch i s = .done v (s.setCache (Cache.promote s.cache i v)) := by
  simp only [regFetch, if_pos hi, hf]

/-- A miss answers the register's value and inserts it. -/
theorem regFetch_of_miss (hi : i < s.nreg) (hf : Cache.find s.cache i = none) :
    regFetch i s = .done (s.reg i) (s.setCache (Cache.insert s.cacheCap s.cache i (s.reg i))) := by
  simp only [regFetch, if_pos hi, hf]

/-! ### A row of fetches -/

@[simp] theorem fetchAll_nil (s : State) : fetchAll [] s = s := rfl

/-- A row of fetches whose first one completes goes on in the state after it. -/
theorem fetchAll_cons_of_done {t : State} {r : Nat} {rs : List Nat} (h : regFetch r s = .done v t) :
    fetchAll (r :: rs) s = fetchAll rs t := by
  simp only [fetchAll, h]

/-- The cache entry a miss makes for register `r`. -/
def State.entryOf (s : State) (r : Nat) : Nat × Value := (r, s.reg r)

/-- A row of distinct fetches in range, of registers that are not cached and one more than there is room for, appends
their entries in order and evicts the head: every fetch but the last finds room. -/
theorem fetchAll_cache_of_overfull {rs : List Nat} (hnd : rs.Nodup) (hin : ∀ r ∈ rs, r < s.nreg)
    (hout : ∀ r ∈ rs, r ∉ s.cache.map Prod.fst) (hne : rs ≠ [])
    (hlen : s.cache.length + rs.length = s.cacheCap + 1) :
    (fetchAll rs s).cache = (s.cache ++ rs.map s.entryOf).tail := by
  induction rs generalizing s with
  | nil => exact absurd rfl hne
  | cons r rs ih =>
    obtain ⟨hr, hnd⟩ := List.nodup_cons.mp hnd
    obtain ⟨hri, hin⟩ := List.forall_mem_cons.mp hin
    obtain ⟨hro, hout⟩ := List.forall_mem_cons.mp hout
    rw [fetchAll_cons_of_done (regFetch_of_miss hri (Cache.find_eq_none_of_not_mem hro))]
    rw [List.length_cons] at hlen
    cases rs with
    | nil =>
      rw [Cache.insert_of_le (by simp at hlen; omega)]
      rfl
    | cons r' rs =>
      rw [Cache.insert_of_lt (by simp at hlen; omega)]
      have houtAfter : ∀ k ∈ r' :: rs, k ∉ (s.cache ++ [(r, s.reg r)]).map Prod.fst := by
        intro k hk hmem
        rw [List.map_append, List.mem_append] at hmem
        rcases hmem with hold | hnew
        · exact hout k hk hold
        · obtain rfl : k = r := List.mem_singleton.mp hnew
          exact hr hk
      have hlenAfter : (s.cache ++ [(r, s.reg r)]).length + (r' :: rs).length = s.cacheCap + 1 := by
        rw [List.length_append, List.length_singleton]; omega
      rw [ih (s := s.setCache (s.cache ++ [(r, s.reg r)])) hnd hin houtAfter (List.cons_ne_nil _ _) hlenAfter,
        State.setCache_cache, List.append_assoc]
      rfl

/-- Settles O19: the range check, the hit and the two misses are the equations of `regFetch`; the eviction order is
`fetchAll_cache_of_overfull` from the empty cache. -/
theorem regFetchFollowsTheLruRule : Obligations.RegFetchFollowsTheLruRule := by
  intro s i
  refine ⟨regFetch_of_le, fun v => regFetch_of_hit, fun hi hf => ⟨fun hroom => ?_, fun hfull => ?_⟩,
    fun rs hempty hnd hin hlen => ?_⟩
  · rw [regFetch_of_miss hi hf, Cache.insert_of_lt hroom]; rfl
  · rw [regFetch_of_miss hi hf, Cache.insert_of_le hfull]; rfl
  · have hne : rs ≠ [] := List.ne_nil_of_length_eq_add_one hlen
    rw [fetchAll_cache_of_overfull hnd hin (by simp [hempty]) hne (by simpa [hempty] using hlen), hempty,
      List.nil_append, ← List.map_tail]
    rfl

/-- Settles O20: a write in range is `State.setReg`, whose register and cache laws give each clause. -/
theorem regWriteUpdatesInPlace : Obligations.RegWriteUpdatesInPlace := by
  intro s i v
  refine ⟨fun hi => regWrite_of_le hi v, fun hi => ⟨s.setReg i v, regWrite_of_lt hi v, ?_⟩⟩
  exact ⟨s.setReg_nreg i v, s.setReg_reg hi v, Cache.map_fst_update s.cache i v, s.setReg_cache i v, rfl⟩

end Sys2Proof.Machine
end

section
/-! Memory (20_memory.md R61): what a read answers, and what LOAD can do. -/

namespace Sys2Proof.Machine

variable {s t : State} {addr : Addr} {d : Nat} {v : Value}

/-- A present cell reads its value. -/
theorem memRead_of_find_eq_some (h : FiniteMap.find s.mem addr = some v) : memRead addr s = v := by
  rw [memRead, Memory.read, h, Option.getD_some]

/-- An absent cell reads 0. -/
theorem memRead_of_find_eq_none (h : FiniteMap.find s.mem addr = none) : memRead addr s = 0 := by
  rw [memRead, Memory.read, h, Option.getD_none, absentCell]

/-- Everything LOAD can do: with its destination in range it writes the cell's value there and adds its cost, with its
destination out of range it only latches the error. -/
theorem exec_load_cases (h : exec (.load addr d) s = .next t) :
    (d < s.nreg ∧ t = (s.setReg d (memRead addr s)).addCost 2) ∨ (s.nreg ≤ d ∧ t = s.raise (dataIndexError d)) := by
  rcases Nat.lt_or_ge d s.nreg with hd | hd
  · rw [exec, execLoad_of_lt hd] at h; cases h
    exact .inl ⟨hd, rfl⟩
  · rw [exec, execLoad_of_le hd] at h; cases h
    exact .inr ⟨hd, rfl⟩

/-- Settles O22: the two values of a read are the equations of `memRead`; neither end of LOAD (`exec_load_cases`) touches
Memory, and its register write updates the cached copy in place. -/
theorem memReadDefaultsToZeroAndChangesNothing : Obligations.MemReadDefaultsToZeroAndChangesNothing := by
  refine ⟨fun s addr v => memRead_of_find_eq_some, fun s addr => memRead_of_find_eq_none, fun s t addr d h => ?_⟩
  rcases exec_load_cases h with ⟨-, rfl⟩ | ⟨-, rfl⟩
  · exact ⟨rfl, Cache.map_fst_update s.cache d (memRead addr s)⟩
  · exact ⟨rfl, rfl⟩

end Sys2Proof.Machine
end

section
/-! The two decoders on what the encoders write (30_encoding.md R90, R94), and the load of a program whose lines decode
one by one (R97, R98). -/

namespace Sys2Proof

/-! ### Words and binary lines -/

/-- An encodable instruction is the instruction of its label and its fields. -/
theorem instrOfFields_fields {i : Instr} (h : i.encodable = true) :
    instrOfFields i.label i.fields.1 i.fields.2.1 i.fields.2.2 = i := by
  cases i with
  | nop => exact Laws.FieldsByArity.nop.2 h
  | halt => exact Laws.FieldsByArity.halt.2 h
  | cmp a b d => exact (Laws.FieldsByArity.cmp a b d).2 h
  | cne a b d => exact (Laws.FieldsByArity.cne a b d).2 h
  | jmpc target j => exact (Laws.FieldsByArity.jmpc target j).2 h
  | jmpu target => exact (Laws.FieldsByArity.jmpu target).2 h
  | load addr d => exact (Laws.FieldsByArity.load addr d).2 h
  | store r addr => exact (Laws.FieldsByArity.store r addr).2 h
  | add a b d => exact (Laws.FieldsByArity.add a b d).2 h
  | sub a b d => exact (Laws.FieldsByArity.sub a b d).2 h
  | mult a b d => exact (Laws.FieldsByArity.mult a b d).2 h

/-- A word put together from a label's opcode and three fields decodes to the instruction of that label and fields. -/
theorem decode16_append {m : OpMap} (hm : m.WellFormed) (l : Label) (a b c : Nibble) :
    decode16 m (m l ++ a ++ b ++ c) = some (instrOfFields l a.toNat b.toNat c.toNat) := by
  rw [decode16, wordField_append_12, wordField_append_8, wordField_append_4, wordField_append_0,
    OpMap.labelOf_self hm, Option.map_some]

/-- The decoder inverts the encoder: the fields of an encodable instruction lose nothing in 4 bits. -/
theorem decode16_encode {m : OpMap} (hm : m.WellFormed) {i : Instr} (h : i.encodable = true) :
    decode16 m (encode m i) = some i := by
  obtain ⟨h1, h2, h3⟩ := Instr.fields_lt h
  rw [encode, decode16_append hm, BitVec.toNat_ofNat, BitVec.toNat_ofNat, BitVec.toNat_ofNat, Nat.mod_eq_of_lt h1,
    Nat.mod_eq_of_lt h2, Nat.mod_eq_of_lt h3, instrOfFields_fields h]

/-- The line of a word has no field that is not binary. -/
@[simp] theorem firstBadField_lineOfWord (w : Word) (p : Nat) : firstBadField p (lineFields (lineOfWord w)) = none :=
  firstBadField_eq_none p fun _ hf c hc => isBit_of_mem_bitsOf w 16 c (mem_of_mem_lineFields hf hc)

/-- The line of a word decodes to what the word decodes to. -/
theorem decodeBinaryLine_lineOfWord {m : OpMap} {w : Word} {i : Instr} (h : decode16 m w = some i) (n : Nat) :
    decodeBinaryLine m (lineOfWord w) n = .ok i := by
  have hlen : (lineOfWord w).length = 16 := length_bitsOf w 16
  simp [decodeBinaryLine, hlen, h]

/-! ### Operand tokens -/

/-- An admissible sentinel is no digit, no blank and not `-`. -/
theorem litMarkOk_iff {c : Char} : litMarkOk c = true ↔ isDigit c = false ∧ isBlank c = false ∧ c ≠ '-' := by
  simp [litMarkOk, and_assoc]

/-- A numeral begins with a digit. -/
theorem decimal_eq_cons (n : Nat) : ∃ c cs, decimal n = c :: cs ∧ isDigit c = true := by
  obtain ⟨c, cs, h⟩ := List.exists_cons_of_ne_nil (decimal_ne_nil n)
  exact ⟨c, cs, h, isDigit_of_mem_decimal n c (h ▸ List.mem_cons_self)⟩

/-- A numeral without a sign is the signed integer it spells: its first character is a digit, so it is not `-`. -/
theorem signedInteger_decimal (n : Nat) : signedInteger (decimal n) = some (n : Int) := by
  obtain ⟨c, cs, h, hc⟩ := decimal_eq_cons n
  have hminus : c ≠ '-' := by rintro rfl; exact absurd hc (by decide)
  rw [h, signedInteger, if_neg (by simpa using hminus), ← h, bareInteger_decimal]
  rfl

/-- A signed numeral is the signed integer it spells. -/
@[simp] theorem signedInteger_signedDecimal (v : Int) : signedInteger (signedDecimal v) = some v := by
  cases v with
  | ofNat n => exact signedInteger_decimal n
  | negSucc n =>
    rw [signedDecimal, signedInteger, if_pos (by decide), bareInteger_decimal]
    rfl

/-- The token of a source operand reads back as that operand: the sentinel is no digit, so no register reference begins
with it. -/
theorem sourceToken_token {mark : Char} (hmark : litMarkOk mark = true) (a : Src) :
    sourceToken mark (a.token mark) = some a := by
  obtain ⟨hdigit, -, -⟩ := litMarkOk_iff.mp hmark
  cases a with
  | lit v => rw [Src.token, sourceToken, if_pos (by simp), signedInteger_signedDecimal, Option.map_some]
  | reg i =>
    obtain ⟨c, cs, h, hc⟩ := decimal_eq_cons i
    have hne : c ≠ mark := by rintro rfl; simp [hc] at hdigit
    rw [Src.token, h, sourceToken, if_neg (by simpa using hne), ← h, bareInteger_decimal, Option.map_some]

/-- A line that splits off as one token: it has a character, and no blank. -/
def IsToken (w : Line) : Prop := w ≠ [] ∧ ∀ c ∈ w, isBlank c = false

theorem isToken_decimal (n : Nat) : IsToken (decimal n) :=
  ⟨decimal_ne_nil n, fun c hc => isBlank_of_isDigit (isDigit_of_mem_decimal n c hc)⟩

/-- A token with a character that is not a blank before it. -/
theorem IsToken.cons {w : Line} (hw : IsToken w) {c : Char} (hc : isBlank c = false) : IsToken (c :: w) :=
  ⟨List.cons_ne_nil c w, List.forall_mem_cons.mpr ⟨hc, hw.2⟩⟩

theorem isToken_signedDecimal (v : Int) : IsToken (signedDecimal v) := by
  cases v with
  | ofNat n => exact isToken_decimal n
  | negSucc n => exact (isToken_decimal (n + 1)).cons (by decide)

theorem isToken_token {mark : Char} (hmark : litMarkOk mark = true) (a : Src) : IsToken (a.token mark) := by
  obtain ⟨-, hblank, -⟩ := litMarkOk_iff.mp hmark
  cases a with
  | lit v => exact (isToken_signedDecimal v).cons hblank
  | reg i => exact isToken_decimal i

theorem isToken_of_mem_operandTokens {mark : Char} (hmark : litMarkOk mark = true) (i : Instr) :
    ∀ w ∈ i.operandTokens mark, IsToken w := by
  cases i <;> simp [Instr.operandTokens, isToken_decimal, isToken_token hmark]

theorem isToken_name (op : Mnemonic) : IsToken op.name := by
  cases op <;> simp [IsToken, Mnemonic.name, isBlank]

/-! ### Text lines -/

@[simp] theorem mnemonicOf_name (op : Mnemonic) : mnemonicOf op.name = some op := by cases op <;> decide

theorem threeOperands_tokens {mark : Char} (hmark : litMarkOk mark = true) (f : Src → Src → Nat → Instr) (a b : Src)
    (d : Nat) : threeOperands mark f (a.token mark) (b.token mark) (decimal d) = .ok (f a b d) := by
  rw [threeOperands, sourceToken_token hmark, sourceToken_token hmark, bareInteger_decimal]
  rfl

theorem twoOperands_decimal (f : Nat → Nat → Instr) (a b : Nat) :
    twoOperands f (decimal a) (decimal b) = .ok (f a b) := by
  rw [twoOperands, bareInteger_decimal, bareInteger_decimal]
  rfl

theorem oneOperand_decimal (f : Nat → Instr) (a : Nat) : oneOperand f (decimal a) = .ok (f a) := by
  rw [oneOperand, bareInteger_decimal]
  rfl

/-- The operand tokens of an instruction match the grammar of its mnemonic and give the instruction back. -/
theorem parseOperands_operandTokens {mark : Char} (hmark : litMarkOk mark = true) (i : Instr) :
    parseOperands mark i.mnemonic (i.operandTokens mark) = .ok i := by
  cases i with
  | nop | halt => rfl
  | cmp a b d | cne a b d | add a b d | sub a b d | mult a b d => exact threeOperands_tokens hmark _ a b d
  | load addr d => exact twoOperands_decimal _ addr d
  | store r addr => exact twoOperands_decimal _ r addr
  | jmpc target j => exact twoOperands_decimal _ target j
  | jmpu target => exact oneOperand_decimal _ target

/-- The tokens of an instruction's text line. -/
theorem tokensOf_textLine {mark : Char} (hmark : litMarkOk mark = true) (i : Instr) :
    tokensOf (textLine mark i) = i.mnemonic.name :: i.operandTokens mark :=
  tokensOf_join (isToken_name i.mnemonic).1 (isToken_name i.mnemonic).2 (isToken_of_mem_operandTokens hmark i)

/-- The text line of an instruction decodes to it. -/
theorem decodeTextLine_textLine {mark : Char} (hmark : litMarkOk mark = true) (i : Instr) (n : Nat) :
    decodeTextLine mark (textLine mark i) n = .ok i := by
  simp only [decodeTextLine, tokensOf_textLine hmark, parseTokens, mnemonicOf_name, parseOperands_operandTokens hmark]

/-! ### Whole programs -/

/-- Lines that decode one by one, whatever their line numbers, decode to the list of their instructions. -/
theorem decodeLines_of_forall₂ {decode : Line → Nat → Except ValidationError Instr} {lines : List Line}
    {is : List Instr} (h : List.Forall₂ (fun line i => ∀ n, decode line n = .ok i) lines is) (n : Nat) :
    decodeLines decode n lines = .ok is := by
  induction h generalizing n with
  | nil => rfl
  | cons hline _ ih => simp only [decodeLines, hline, ih]

/-- The text lines of any instructions decode to them. -/
theorem decodeProgram_textLines (m : OpMap) {mark : Char} (hmark : litMarkOk mark = true) (is : List Instr) :
    decodeProgram m mark .text (is.map (textLine mark)) = .ok is := by
  refine decodeLines_of_forall₂ ?_ 1
  rw [List.forall₂_map_left_iff, List.forall₂_same]
  exact fun i _ => decodeTextLine_textLine hmark i

/-- The lines of words that decode one by one decode to the list of their instructions. -/
theorem decodeProgram_lineOfWord {m : OpMap} {words : List Word} {is : List Instr}
    (h : words.map (decode16 m) = is.map some) (mark : Char) :
    decodeProgram m mark .binary (words.map lineOfWord) = .ok is := by
  rw [← List.forall₂_eq_eq_eq, List.forall₂_map_left_iff, List.forall₂_map_right_iff] at h
  refine decodeLines_of_forall₂ (List.forall₂_map_left_iff.mpr ?_) 1
  exact h.imp fun _ _ hw => decodeBinaryLine_lineOfWord hw

namespace Machine

/-- A program whose lines decode is stored whole: of the format, only what the lines decode to is kept. -/
theorem State.loadLines_of_decodeProgram {m : OpMap} {mark : Char} {f : Format} {lines : List Line} {is : List Instr}
    (h : decodeProgram m mark f lines = .ok is) (s : State) :
    s.loadLines m mark f lines = .ok (s.loadProgram (is.map Entry.instr)) := by
  simp only [State.loadLines, h]

/-- Settles O10: both programs decode to the same instructions, and the load keeps nothing else of them; the twins of a
list of encodable instructions are their text lines and their words. -/
theorem textAndBinaryTwinsRunAlike : Obligations.TextAndBinaryTwinsRunAlike := by
  intro m mark s hm hmark
  refine ⟨fun texts words is htext hwords => ?_, fun is hencodable => ⟨decodeProgram_textLines m hmark is, ?_⟩⟩
  · have hbinary : decodeProgram m mark .binary (words.map lineOfWord) = .ok is := decodeProgram_lineOfWord hwords mark
    exact ⟨_, _, s.loadLines_of_decodeProgram htext, s.loadLines_of_decodeProgram hbinary, rfl, rfl, fun _ => rfl⟩
  · rw [List.map_map]
    exact List.map_congr_left fun i hi => decode16_encode hm (hencodable i hi)

end Machine

end Sys2Proof
end

section
/-! The run (70_reset_and_hazards.md R235): it goes on from where its first steps lead, and ends at once in a terminal
state. -/

namespace Sys2Proof.Machine

variable {s t : State} {f : Fault}

/-- The step of a terminal state answers its terminal case. -/
theorem step_of_terminal (h : s.terminal? = some f) : step s = .fault f := by
  rcases step_cases s with
    ⟨e, hf, hstep⟩ | ⟨hf, hr, hstep⟩ | ⟨hf, hr, hp, hstep⟩ | ⟨e, hf, hr, hp, -⟩
  · rw [hstep, show f = .aborted e by simpa [State.terminal?, hf] using h.symm]
  · rw [hstep, show f = .halted by simpa [State.terminal?, hf, hr] using h.symm]
  · rw [hstep, show f = .ranOffEnd by simpa [State.terminal?, hf, hr, hp] using h.symm]
  · simp [State.terminal?, hf, hr, hp] at h

/-- In a terminal state the run has ended, whatever the fuel. -/
theorem runFor_of_terminal (h : s.terminal? = some f) (fuel : Nat) : runFor fuel s = .ended f s := by
  cases fuel with
  | zero => simp only [runFor, h]
  | succ fuel => exact runFor_succ_of_fault (step_of_terminal h) fuel

/-- In any other state a run without fuel has not ended. -/
theorem runFor_zero_of_terminal_eq_none (h : s.terminal? = none) : runFor 0 s = .unfinished s := by
  simp only [runFor, h]

/-- A run goes on from the state its first steps lead to. -/
theorem runFor_add_of_run {n : Nat} (h : Host.Core.run core n s = .next t) (k : Nat) :
    runFor (n + k) s = runFor k t := by
  induction n generalizing s with
  | zero =>
    obtain rfl : s = t := Host.Outcome.next.inj h
    rw [Nat.zero_add]
  | succ n ih =>
    obtain ⟨u, hstep, hrun⟩ := core_run_succ_next h
    rw [Nat.succ_add, runFor_succ_of_next hstep, ih hrun]

/-- Settles O49: after n steps the run goes on from the state they lead to (`runFor_add_of_run`), where it ends at once
if that state is terminal (`runFor_of_terminal`); what the caller gets is read off the way it ended. -/
theorem runReturnsTheSnapshotOrTheError : Obligations.RunReturnsTheSnapshotOrTheError := by
  intro s t n hrun
  have hended : ∀ f, t.terminal? = some f → ∀ k, runFor (n + k) s = .ended f t := fun f hf k => by
    rw [runFor_add_of_run hrun, runFor_of_terminal hf]
  refine ⟨fun hnone => ?_, hended, ?_, fun e haborted k => by rw [hended _ haborted]; rfl⟩
  · have hunfinished : runFor n s = .unfinished t :=
      (runFor_add_of_run hrun 0).trans (runFor_zero_of_terminal_eq_none hnone)
    exact ⟨hunfinished, by rw [hunfinished]; rfl⟩
  · rintro (hhalted | hoff) k
    · rw [hended _ hhalted]; rfl
    · rw [hended _ hoff]; rfl

end Sys2Proof.Machine
end

section
/-! The fields of a word and of an instruction (30_encoding.md R83, R87, R88, R90): which fields an instruction keeps,
and what the encoder writes into the others. -/

namespace Sys2Proof

/-- Operand field `k` of a word, counted from 0 at the left. -/
def operandField (w : Word) (k : Nat) : Nibble := wordField w (8 - 4 * k)

/-- Operand field `k` of an instruction, counted from 0 at the left. -/
def Instr.fieldAt (i : Instr) (k : Nat) : Nat := [i.fields.1, i.fields.2.1, i.fields.2.2].getD k 0

/-- The operand fields of the encoder's word are the instruction's fields. -/
theorem operandField_encode (m : OpMap) (i : Instr) {k : Nat} (hk : k < 3) :
    operandField (encode m i) k = BitVec.ofNat 4 (i.fieldAt k) := by
  interval_cases k
  · exact wordField_append_8 _ _ _ _
  · exact wordField_append_4 _ _ _ _
  · exact wordField_append_0 _ _ _ _

theorem Label.arity_le_three (l : Label) : l.arity ≤ 3 := by cases l <;> decide

/-- An instruction made from fields holds the first `arity` of them. -/
theorem fieldAt_instrOfFields (l : Label) (f : Nat → Nat) {k : Nat} (hk : k < l.arity) :
    (instrOfFields l (f 0) (f 1) (f 2)).fieldAt k = f k := by
  have hk3 : k < 3 := hk.trans_le l.arity_le_three
  cases l <;> simp only [Label.arity] at hk <;> interval_cases k <;> rfl

/-- The fields an instruction's label discards are 0. -/
theorem fieldAt_eq_zero (i : Instr) {k : Nat} (hk : i.label.arity ≤ k) (hk3 : k < 3) : i.fieldAt k = 0 := by
  cases i <;> simp only [Instr.label, Label.arity] at hk <;> interval_cases k <;> rfl

/-- An instruction made from fields depends on the first `arity` of them alone. -/
theorem instrOfFields_congr {l : Label} {f g : Nat → Nat} (h : ∀ k, k < l.arity → f k = g k) :
    instrOfFields l (f 0) (f 1) (f 2) = instrOfFields l (g 0) (g 1) (g 2) := by
  cases l <;> simp only [Label.arity] at h <;> simp only [instrOfFields, h, Nat.reduceLT]

/-- An instruction made from fields of 4 bits is encodable. -/
theorem encodable_instrOfFields (l : Label) {a b c : Nat} (ha : a < 16) (hb : b < 16) (hc : c < 16) :
    (instrOfFields l a b c).encodable = true := by
  cases l <;> simp [instrOfFields, Instr.jmp, Instr.encodable, Src.encodable, ha, hb, hc]

/-- Settles O1: the fields of an encodable instruction lose nothing in 4 bits, and the table finds its label again. -/
theorem encodedInstructionDecodesBack : Obligations.EncodedInstructionDecodesBack :=
  fun _ hm _ hi => decode16_encode hm hi

/-- Settles O2: the decoded instruction is made from the word's fields; it holds the kept ones, and those it does not
hold are 0. -/
theorem decodedWordKeepsItsFields : Obligations.DecodedWordKeepsItsFields := by
  intro m w i h
  obtain ⟨l, hl, rfl⟩ := decode16_some h
  have hkept := fun k => fieldAt_instrOfFields l (fun k => (operandField w k).toNat) (k := k)
  rw [instrOfFields_label]
  refine ⟨encodable_instrOfFields l (BitVec.isLt _) (BitVec.isLt _) (BitVec.isLt _), hl.symm, fun k hk => ?_,
    fun k hk hk3 => ?_⟩
  · calc operandField (encode m _) k
      _ = BitVec.ofNat 4 (Instr.fieldAt _ k) := operandField_encode m _ (hk.trans_le l.arity_le_three)
      _ = BitVec.ofNat 4 (operandField w k).toNat := congrArg _ (hkept k hk)
      _ = operandField w k := by rw [BitVec.ofNat_toNat, BitVec.setWidth_eq]
  · refine (operandField_encode m _ hk3).trans ?_
    rw [fieldAt_eq_zero _ ((instrOfFields_label l _ _ _).symm ▸ hk) hk3]
    rfl

/-- Settles O3: both words have the same label, whose instruction depends on the kept fields alone. -/
theorem discardedFieldsAreIgnored : Obligations.DiscardedFieldsAreIgnored := by
  intro m w w' hop hkept
  rw [decode16, decode16, ← hop]
  cases hl : m.labelOf (wordField w 12) with
  | none => rfl
  | some l =>
    refine congrArg some (instrOfFields_congr (f := fun k => (operandField w k).toNat)
      (g := fun k => (operandField w' k).toNat) fun k hk => ?_)
    exact congrArg BitVec.toNat (hkept l hl k hk)

/-- Settles O6: each word is decoded by evaluation. -/
theorem writtenOutWordsDecode : Obligations.WrittenOutWordsDecode :=
  ⟨rfl, rfl, rfl, rfl, rfl, rfl, rfl, rfl, rfl, rfl, rfl, rfl, rfl, rfl⟩

end Sys2Proof
end

section
/-! The load of a whole program (30_encoding.md R97) and the checks of the binary decoder on one line (R86, R89). -/

namespace Sys2Proof

section
variable {decode : Line → Nat → Except ValidationError Instr}

/-- Decoding lines fails with the error of the first malformed one; line `k` of the list has number `k + n`. -/
theorem decodeLines_eq_error_iff {n : Nat} {lines : List Line} {e : ValidationError} :
    decodeLines decode n lines = .error e ↔
      ∃ (k : Nat) (line : Line), lines[k]? = some line ∧ decode line (k + n) = .error e ∧
        ∀ (j : Nat) (line' : Line), j < k → lines[j]? = some line' → ∃ i, decode line' (j + n) = .ok i := by
  induction lines generalizing n with
  | nil => simp [decodeLines]
  | cons line lines ih =>
    have hshift : ∀ k, k + 1 + n = k + (n + 1) := fun k => by omega
    cases hline : decode line n with
    | error e' =>
      simp only [decodeLines, hline, Except.error.injEq]
      constructor
      · rintro rfl
        exact ⟨0, line, rfl, by rwa [Nat.zero_add], fun j _ hj => absurd hj (Nat.not_lt_zero j)⟩
      · rintro ⟨k, line', hk, herr, hbefore⟩
        cases k with
        | zero =>
          cases hk
          rw [Nat.zero_add, hline] at herr
          exact Except.error.inj herr
        | succ k =>
          obtain ⟨i, hi⟩ := hbefore 0 line k.succ_pos rfl
          rw [Nat.zero_add, hline] at hi
          cases hi
    | ok i =>
      have hcons : decodeLines decode n (line :: lines) = .error e ↔ decodeLines decode (n + 1) lines = .error e := by
        simp only [decodeLines, hline]
        cases decodeLines decode (n + 1) lines <;> simp
      rw [hcons, ih]
      constructor
      · rintro ⟨k, line', hk, herr, hbefore⟩
        refine ⟨k + 1, line', hk, by rwa [hshift], fun j line'' hj hj' => ?_⟩
        cases j with
        | zero => cases hj'; exact ⟨i, by rwa [Nat.zero_add]⟩
        | succ j => rw [hshift]; exact hbefore j line'' (Nat.lt_of_succ_lt_succ hj) hj'
      · rintro ⟨k, line', hk, herr, hbefore⟩
        cases k with
        | zero => cases hk; rw [Nat.zero_add, hline] at herr; cases herr
        | succ k =>
          refine ⟨k, line', hk, by rwa [hshift] at herr, fun j line'' hj hj' => ?_⟩
          rw [← hshift]
          exact hbefore (j + 1) line'' (Nat.succ_lt_succ hj) hj'

/-- Lines that decode give one instruction each, in order. -/
theorem decodeLines_eq_ok {n : Nat} {lines : List Line} {is : List Instr} (h : decodeLines decode n lines = .ok is) :
    is.length = lines.length ∧
      ∀ (k : Nat) (line : Line), lines[k]? = some line → ∃ i, is[k]? = some i ∧ decode line (k + n) = .ok i := by
  induction lines generalizing n is with
  | nil => cases h; simp
  | cons line lines ih =>
    rw [decodeLines] at h
    split at h
    · cases h
    · rename_i i hline
      split at h
      · cases h
      · rename_i is' hlines
        cases h
        obtain ⟨hlen, hall⟩ := ih hlines
        refine ⟨congrArg (· + 1) hlen, fun k line' hk => ?_⟩
        cases k with
        | zero => cases hk; exact ⟨i, rfl, by rwa [Nat.zero_add]⟩
        | succ k =>
          obtain ⟨i', hi', hdec⟩ := hall k line' hk
          exact ⟨i', hi', by rwa [show k + 1 + n = k + (n + 1) by omega]⟩

/-- Settles O9: both clauses are said of `decodeLines` from any line number on. -/
theorem firstMalformedLineFailsTheWholeLoad : Obligations.FirstMalformedLineFailsTheWholeLoad :=
  fun _ _ _ _ => ⟨fun _ => decodeLines_eq_error_iff, fun _ => decodeLines_eq_ok⟩

end

/-! ### Unassigned opcodes -/

/-- A word decodes to nothing exactly if no label has its opcode. -/
theorem decode16_eq_none_iff {m : OpMap} {w : Word} : decode16 m w = none ↔ ∀ l, m l ≠ wordField w 12 := by
  rw [decode16, Option.map_eq_none_iff, OpMap.labelOf_eq_none]

/-- The opcodes the default table leaves unassigned. -/
theorem labelOf_default_eq_none_iff : ∀ op : Nibble, OpMap.default.labelOf op = none ↔ 11 ≤ op.toNat := by decide

/-- The line of a word with an unassigned opcode passes the first two checks and is rejected for its opcode. -/
theorem decodeBinaryLine_lineOfWord_of_none {m : OpMap} {w : Word} (h : decode16 m w = none) (n : Nat) :
    decodeBinaryLine m (lineOfWord w) n = .error ⟨n, .unrecognizedBinaryOpcode⟩ := by
  have hlen : (lineOfWord w).length = 16 := length_bitsOf w 16
  simp [decodeBinaryLine, hlen, h]

/-- A program that holds a line which decodes under no line number fails to load. -/
theorem Machine.State.loadLines_eq_error {m : OpMap} {mark : Char} {f : Format} {lines : List Line} {line : Line}
    (hmem : line ∈ lines) (hbad : ∀ n i, decodeLine m mark f line n ≠ .ok i) (s : Machine.State) :
    ∃ e, s.loadLines m mark f lines = .error e := by
  cases h : decodeProgram m mark f lines with
  | error e => exact ⟨e, by simp only [Machine.State.loadLines, h]⟩
  | ok is =>
    obtain ⟨k, hk⟩ := List.mem_iff_getElem?.mp hmem
    obtain ⟨i, -, hi⟩ := (decodeLines_eq_ok h).2 k line hk
    exact absurd hi (hbad _ i)

/-- Settles O4: the decoder fails where the table finds no label; a line that never decodes fails the whole load. -/
theorem unassignedOpcodeFailsTheLoad : Obligations.UnassignedOpcodeFailsTheLoad := by
  refine ⟨fun m w => decode16_eq_none_iff, fun w => ?_, fun m mark w lines s hop hmem => ?_⟩
  · rw [decode16, Option.map_eq_none_iff, labelOf_default_eq_none_iff]
  · refine Machine.State.loadLines_eq_error hmem (fun n i hi => ?_) s
    rw [decodeLine, decodeBinaryLine_lineOfWord_of_none (decode16_eq_none_iff.mpr hop)] at hi
    cases hi

/-! ### The checks on a binary line -/

/-- The first field that is not binary, counted from `p`. -/
theorem firstBadField_eq_some {p q : Nat} {fs : List Line} {f : Line} (hq : fs[q]? = some f)
    (hbad : f.all isBit = false) (hbefore : ∀ j g, j < q → fs[j]? = some g → g.all isBit = true) :
    firstBadField p fs = some (p + q) := by
  induction fs generalizing p q with
  | nil => cases hq
  | cons g fs ih =>
    cases q with
    | zero => cases hq; rw [firstBadField, if_neg (by simp [hbad]), Nat.add_zero]
    | succ q =>
      rw [firstBadField, if_pos (hbefore 0 g q.succ_pos rfl),
        ih hq fun j g' hj => hbefore (j + 1) g' (Nat.succ_lt_succ hj)]
      congr 1
      omega

/-- Field `q` of a line, counted from 0. -/
theorem getElem?_lineFields (text : Line) {q : Nat} (hq : q < 4) :
    (lineFields text)[q]? = some ((text.drop (4 * q)).take 4) := by
  interval_cases q <;> rfl

/-- A line of 16 characters whose first character that is not binary stands at index `k`. -/
theorem firstBadField_lineFields {text : Line} {k : Nat} {c : Char} (hlen : text.length = 16) (hk : text[k]? = some c)
    (hc : isBit c = false) (hbefore : ∀ (j : Nat) (c' : Char), j < k → text[j]? = some c' → isBit c' = true) :
    firstBadField 1 (lineFields text) = some (k / 4 + 1) := by
  have hk16 : k < 16 := hlen ▸ (List.getElem?_eq_some_iff.mp hk).1
  rw [Nat.add_comm]
  refine firstBadField_eq_some (getElem?_lineFields text (by omega)) ?_ fun j g hj hg => ?_
  · refine List.all_eq_false.mpr ⟨c, List.mem_iff_getElem?.mpr ⟨k % 4, ?_⟩, by simp [hc]⟩
    rw [List.getElem?_take_of_lt (Nat.mod_lt _ (by decide)), List.getElem?_drop, Nat.div_add_mod]
    exact hk
  · rw [getElem?_lineFields text (by omega)] at hg
    obtain rfl := Option.some.inj hg
    refine List.all_eq_true.mpr fun c' hc' => ?_
    obtain ⟨a, ha⟩ := List.mem_iff_getElem?.mp hc'
    have ha4 : a < 4 := by
      have := (List.getElem?_eq_some_iff.mp ha).1
      exact this.trans_le (List.length_take_le _ _)
    rw [List.getElem?_take_of_lt ha4, List.getElem?_drop] at ha
    exact hbefore (4 * j + a) c' (by omega) ha

/-- The characters of a line are below the bits read before it. -/
theorem bitsValue_div (l : Line) (acc : Nat) : bitsValue acc l / 2 ^ l.length = acc := by
  induction l generalizing acc with
  | nil => simp [bitsValue]
  | cons c l ih =>
    rw [bitsValue, List.length_cons, Nat.pow_succ, ← Nat.div_div_eq_div_mul, ih]
    split <;> omega

/-- The first character of a line is the bit above the others. -/
theorem testBit_bitsValue_cons (c : Char) (l : Line) (acc : Nat) :
    (bitsValue acc (c :: l)).testBit l.length = (c == '1') := by
  rw [Nat.testBit_eq_decide_div_mod_eq, bitsValue, bitsValue_div]
  cases c == '1' <;> simp

/-- The low bits of the number a binary string spells are the string. -/
theorem bitsOf_bitsValue {l : Line} (hbits : ∀ c ∈ l, isBit c = true) (hlen : l.length ≤ 16) (acc : Nat) :
    bitsOf (BitVec.ofNat 16 (bitsValue acc l)) l.length = l := by
  induction l generalizing acc with
  | nil => rfl
  | cons c l ih =>
    obtain ⟨hc, hl⟩ := List.forall_mem_cons.mp hbits
    rw [List.length_cons] at hlen
    have hbit : (BitVec.ofNat 16 (bitsValue acc (c :: l))).getLsbD l.length = (c == '1') := by
      rw [BitVec.getLsbD_ofNat, testBit_bitsValue_cons, decide_eq_true (by omega), Bool.true_and]
    rw [List.length_cons, bitsOf, hbit]
    refine congrArg₂ _ ?_ (ih hl (by omega) _)
    rcases (by simpa [isBit] using hc : c = '0' ∨ c = '1') with rfl | rfl <;> rfl

/-- A line of 16 binary characters is the line of its word. -/
theorem lineOfWord_wordOfLine {l : Line} (hlen : l.length = 16) (hbits : ∀ c ∈ l, isBit c = true) :
    lineOfWord (wordOfLine l) = l := by
  have h := bitsOf_bitsValue hbits hlen.le 0
  rwa [hlen] at h

/-- Settles O5: one lemma for each check, in the order of the checks. -/
theorem binaryLineDecoderFollowsItsChecks : Obligations.BinaryLineDecoderFollowsItsChecks := by
  intro m text n
  refine ⟨fun hlen => if_pos hlen, fun k c hlen hk hc hbefore => ?_,
    fun hlen hbits => ⟨wordOfLine text, (lineOfWord_wordOfLine hlen hbits).symm⟩, ?_⟩
  · rw [decodeBinaryLine, if_neg (not_not.mpr hlen), firstBadField_lineFields hlen hk hc hbefore]
  · rintro w rfl
    cases h : decode16 m w with
    | none => exact decodeBinaryLine_lineOfWord_of_none h n
    | some i => exact decodeBinaryLine_lineOfWord h n

end Sys2Proof
end

section
/-! The text decoder (30_encoding.md R94, R95): what it answers for a line, check by check. -/

namespace Sys2Proof

/-- Settles O7: the tokens of an instruction's text line are its mnemonic and its operand tokens, which match the
grammar. -/
theorem textLineDecodesBack : Obligations.TextLineDecodesBack := fun _ hmark i n => decodeTextLine_textLine hmark i n

namespace Machine

variable {mark : Char} {op : Mnemonic}

/-! ### The operands -/

theorem orBadOperand_of_isSome_false {α : Type} {o : Option α} (h : o.isSome = false) (k : Nat) :
    orBadOperand k o = .error (.badOperand k) := by
  rw [Option.isSome_eq_false_iff, Option.isNone_iff_eq_none] at h
  rw [h, orBadOperand]

theorem orBadOperand_of_isSome {α : Type} {o : Option α} (h : o.isSome = true) (k : Nat) :
    ∃ v, orBadOperand k o = .ok v := by
  obtain ⟨v, rfl⟩ := Option.isSome_iff_exists.mp h
  exact ⟨v, rfl⟩

/-- Operands read from left to right: the answer names the first operand that does not pass its check, and is an
instruction of the mnemonic if all pass. -/
def ReadInOrder (passes : Nat → Line → Bool) (op : Mnemonic) (operands : List Line)
    (r : Except ValidationReason Instr) : Prop :=
  (∀ (k : Nat) (token : Line), operands[k]? = some token → passes (k + 1) token = false →
    (∀ (j : Nat) (token' : Line), j < k → operands[j]? = some token' → passes (j + 1) token' = true) →
      r = .error (.badOperand (k + 1))) ∧
    ((∀ (k : Nat) (token : Line), operands[k]? = some token → passes (k + 1) token = true) →
      ∃ i, r = .ok i ∧ i.mnemonic = op)

/-- The check of an operand that must be a bare integer. -/
def passesBare (_ : Nat) (token : Line) : Bool := (bareInteger token).isSome

/-- The checks of two source operands and a bare destination index. -/
def passesThree (mark : Char) (position : Nat) (token : Line) : Bool :=
  if position < 3 then (sourceToken mark token).isSome else (bareInteger token).isSome

theorem readInOrder_nil {passes : Nat → Line → Bool} {i : Instr} (hi : i.mnemonic = op) :
    ReadInOrder passes op [] (.ok i) :=
  ⟨fun _ _ hk => (by cases hk), fun _ => ⟨i, rfl, hi⟩⟩

theorem oneOperand_readInOrder {f : Nat → Instr} (hf : ∀ a, (f a).mnemonic = op) (a : Line) :
    ReadInOrder passesBare op [a] (oneOperand f a) := by
  refine ⟨fun k token hk hbad _ => ?_, fun hall => ?_⟩
  · match k, hk with
    | 0, hk =>
      cases hk
      rw [oneOperand, orBadOperand_of_isSome_false hbad]
      rfl
  · obtain ⟨v, hv⟩ := orBadOperand_of_isSome (hall 0 a rfl) 1
    exact ⟨f v, by rw [oneOperand, hv]; rfl, hf v⟩

theorem twoOperands_readInOrder {f : Nat → Nat → Instr} (hf : ∀ a b, (f a b).mnemonic = op) (a b : Line) :
    ReadInOrder passesBare op [a, b] (twoOperands f a b) := by
  refine ⟨fun k token hk hbad hbefore => ?_, fun hall => ?_⟩
  · match k, hk with
    | 0, hk =>
      cases hk
      rw [twoOperands, orBadOperand_of_isSome_false hbad]
      rfl
    | 1, hk =>
      cases hk
      obtain ⟨v, hv⟩ := orBadOperand_of_isSome (hbefore 0 a (by decide) rfl) 1
      rw [twoOperands, hv, orBadOperand_of_isSome_false hbad]
      rfl
  · obtain ⟨v, hv⟩ := orBadOperand_of_isSome (hall 0 a rfl) 1
    obtain ⟨w, hw⟩ := orBadOperand_of_isSome (hall 1 b rfl) 2
    exact ⟨f v w, by rw [twoOperands, hv, hw]; rfl, hf v w⟩

theorem threeOperands_readInOrder {f : Src → Src → Nat → Instr} (hf : ∀ a b d, (f a b d).mnemonic = op)
    (a b d : Line) : ReadInOrder (passesThree mark) op [a, b, d] (threeOperands mark f a b d) := by
  refine ⟨fun k token hk hbad hbefore => ?_, fun hall => ?_⟩
  · match k, hk with
    | 0, hk =>
      cases hk
      rw [threeOperands, orBadOperand_of_isSome_false hbad]
      rfl
    | 1, hk =>
      cases hk
      obtain ⟨v, hv⟩ := orBadOperand_of_isSome (hbefore 0 a (by decide) rfl) 1
      rw [threeOperands, hv, orBadOperand_of_isSome_false hbad]
      rfl
    | 2, hk =>
      cases hk
      obtain ⟨v, hv⟩ := orBadOperand_of_isSome (hbefore 0 a (by decide) rfl) 1
      obtain ⟨w, hw⟩ := orBadOperand_of_isSome (hbefore 1 b (by decide) rfl) 2
      rw [threeOperands, hv, hw, orBadOperand_of_isSome_false hbad]
      rfl
  · obtain ⟨v, hv⟩ := orBadOperand_of_isSome (hall 0 a rfl) 1
    obtain ⟨w, hw⟩ := orBadOperand_of_isSome (hall 1 b rfl) 2
    obtain ⟨z, hz⟩ := orBadOperand_of_isSome (hall 2 d rfl) 3
    exact ⟨f v w z, by rw [threeOperands, hv, hw, hz]; rfl, hf v w z⟩

/-- A number of operands the mnemonic does not have is rejected for it. -/
theorem parseOperands_of_arity_not_mem {operands : List Line} (h : operands.length ∉ textArities op) :
    parseOperands mark op operands = .error .wrongArity := by
  unfold parseOperands
  split
  case h_12 => rfl
  all_goals exact absurd (by simp [textArities]) h

/-- With a number of operands the mnemonic has, they are read in order by the grammar of the mnemonic. -/
theorem parseOperands_readInOrder {operands : List Line} (h : operands.length ∈ textArities op) :
    ReadInOrder (operandMatches mark op) op operands (parseOperands mark op operands) := by
  cases op with
  | NOP | HALT =>
    obtain rfl := List.length_eq_zero_iff.mp (List.mem_singleton.mp h)
    exact readInOrder_nil rfl
  | CMP | CNE | ADD | SUB | MULT =>
    obtain ⟨a, b, d, rfl⟩ := List.length_eq_three.mp (List.mem_singleton.mp h)
    exact threeOperands_readInOrder (by intros; rfl) a b d
  | LOAD | STORE =>
    obtain ⟨a, b, rfl⟩ := List.length_eq_two.mp (List.mem_singleton.mp h)
    exact twoOperands_readInOrder (by intros; rfl) a b
  | JMP =>
    rcases List.mem_pair.mp h with h1 | h2
    · obtain ⟨a, rfl⟩ := List.length_eq_one_iff.mp h1
      exact oneOperand_readInOrder (by intros; rfl) a
    · obtain ⟨a, b, rfl⟩ := List.length_eq_two.mp h2
      exact twoOperands_readInOrder (by intros; rfl) a b

/-! ### The line -/

variable {line : Line}

theorem decodeTextLine_of_no_tokens (h : tokensOf line = []) (n : Nat) :
    decodeTextLine mark line n = .error ⟨n, .unrecognizedOpcode⟩ := by
  simp only [decodeTextLine, h, parseTokens]

theorem decodeTextLine_of_unknown_token {token : Line} {operands : List Line} (h : tokensOf line = token :: operands)
    (hop : mnemonicOf token = none) (n : Nat) :
    decodeTextLine mark line n = .error ⟨n, .unrecognizedOpcode⟩ := by
  simp only [decodeTextLine, h, parseTokens, hop]

theorem decodeTextLine_of_error {token : Line} {operands : List Line} {reason : ValidationReason}
    (h : tokensOf line = token :: operands) (hop : mnemonicOf token = some op)
    (hr : parseOperands mark op operands = .error reason) (n : Nat) :
    decodeTextLine mark line n = .error ⟨n, reason⟩ := by
  simp only [decodeTextLine, h, parseTokens, hop, hr]

theorem decodeTextLine_of_ok {token : Line} {operands : List Line} {i : Instr}
    (h : tokensOf line = token :: operands) (hop : mnemonicOf token = some op)
    (hr : parseOperands mark op operands = .ok i) (n : Nat) : decodeTextLine mark line n = .ok i := by
  simp only [decodeTextLine, h, parseTokens, hop, hr]

/-- Settles O8: the opcode checks are those of the line, the arity check and the order of the operands those of
`parseOperands`. -/
theorem textDecoderRejectsByTheFirstFailedCheck : Obligations.TextDecoderRejectsByTheFirstFailedCheck := by
  intro mark line n
  refine ⟨fun hnil => decodeTextLine_of_no_tokens hnil n, fun token operands hcons =>
    ⟨fun hunknown => decodeTextLine_of_unknown_token hcons hunknown n, fun op hop => ⟨fun harity => ?_, fun harity => ?_⟩⟩⟩
  · exact decodeTextLine_of_error hcons hop (parseOperands_of_arity_not_mem harity) n
  · obtain ⟨hreject, haccept⟩ := parseOperands_readInOrder (mark := mark) harity
    refine ⟨fun k token' hk hbad hbefore => ?_, fun hall => ?_⟩
    · exact decodeTextLine_of_error hcons hop (hreject k token' hk hbad hbefore) n
    · obtain ⟨i, hi, hmnemonic⟩ := haccept hall
      exact ⟨i, decodeTextLine_of_ok hcons hop hi n, hmnemonic⟩

end Machine

end Sys2Proof
end

section
/-! Pairs of machines that step alike (10_state.md R33, R40): a relation of states that every operation keeps is kept by
every step. The coherent machines that differ at most in their caches are such a relation; so are the machines whose
costs differ by a constant. On the diagonal the first one says that every step keeps the invariant. -/

namespace Sys2Proof.Machine

variable {R : State → State → Prop}

/-! ### Relations of states that every operation keeps -/

/-- Two accesses end alike: both complete with the same value, or both raise, in related states. -/
inductive Access.Alike (R : State → State → Prop) {α : Type} : Access α → Access α → Prop
  | done (v : α) {s t : State} (h : R s t) : Alike R (.done v s) (.done v t)
  | raised {s t : State} (h : R s t) : Alike R (.raised s) (.raised t)

/-- What follows two accesses that end alike ends alike, if it does so from related states. -/
theorem Access.Alike.bind {α β : Type} {m m' : Access α} {f : α → State → Access β} (h : Alike R m m')
    (hf : ∀ v s t, R s t → Alike R (f v s) (f v t)) : Alike R (m.bind f) (m'.bind f) := by
  cases h with
  | done v h => exact hf v _ _ h
  | raised h => exact .raised h

/-- A relation of states that agree on what the cycle looks at and that every operation keeps. -/
structure StepRelation (R : State → State → Prop) : Prop where
  fault_eq : ∀ {s t}, R s t → t.fault = s.fault
  running_eq : ∀ {s t}, R s t → t.running = s.running
  pc_eq : ∀ {s t}, R s t → t.pc = s.pc
  prog_eq : ∀ {s t}, R s t → t.prog = s.prog
  setPc_rel : ∀ {s t}, R s t → ∀ target, R (s.setPc target) (t.setPc target)
  stopRun_rel : ∀ {s t}, R s t → R s.stopRun t.stopRun
  addCost_rel : ∀ {s t}, R s t → ∀ n, R (s.addCost n) (t.addCost n)
  memRead_eq : ∀ {s t}, R s t → ∀ addr, memRead addr t = memRead addr s
  memWrite_rel : ∀ {s t}, R s t → ∀ addr v, R (memWrite addr v s) (memWrite addr v t)
  regFetch_alike : ∀ {s t}, R s t → ∀ i, Access.Alike R (regFetch i s) (regFetch i t)
  regWrite_alike : ∀ {s t}, R s t → ∀ i v, Access.Alike R (regWrite i v s) (regWrite i v t)
  statusRead_alike : ∀ {s t}, R s t → ∀ j, Access.Alike R (statusRead j s) (statusRead j t)
  statusWrite_alike : ∀ {s t}, R s t → ∀ j b, Access.Alike R (statusWrite j b s) (statusWrite j b t)

variable {s t : State}

/-- Two outcomes are alike: next states that are related, or the same fault. -/
inductive OutcomesAlike (R : State → State → Prop) :
    Host.Outcome State Fault Refusal → Host.Outcome State Fault Refusal → Prop
  | next {s t : State} (h : R s t) : OutcomesAlike R (.next s) (.next t)
  | fault (f : Fault) : OutcomesAlike R (.fault f) (.fault f)

theorem State.advance_eq_setPc (s : State) : s.advance = s.setPc (s.pc + 1) := rfl

namespace StepRelation

variable (hR : StepRelation R)
include hR

theorem retire_alike {m m' : Access Unit} (h : Access.Alike R m m') (n : Nat) :
    OutcomesAlike R (retire n m) (retire n m') := by
  cases h with
  | done _ h => exact .next (hR.addCost_rel h n)
  | raised h => exact .next h

theorem resolve_alike (h : R s t) (o : Src) : Access.Alike R (resolve o s) (resolve o t) := by
  cases o with
  | lit n => exact .done n h
  | reg i => exact hR.regFetch_alike h i

theorem binOp_alike {β : Type} {f : Value → Value → β} {wb : Nat → β → State → Access Unit} (h : R s t) (a b : Src)
    (d : Nat) (hwb : ∀ {u u'}, R u u' → ∀ v, Access.Alike R (wb d v u) (wb d v u')) :
    Access.Alike R (binOp f a b d wb s) (binOp f a b d wb t) :=
  (hR.resolve_alike h a).bind fun _ _ _ h₁ => (hR.resolve_alike h₁ b).bind fun _ _ _ h₂ => hwb h₂ _

/-- Every instruction keeps the relation. -/
theorem exec_alike (h : R s t) (i : Instr) : OutcomesAlike R (exec i s) (exec i t) := by
  cases i with
  | nop => exact hR.retire_alike (.done () h) 0
  | halt => exact hR.retire_alike (.done () (hR.stopRun_rel h)) 0
  | cmp a b d | cne a b d => exact hR.retire_alike (hR.binOp_alike h a b d fun hu => hR.statusWrite_alike hu d) 4
  | add a b d | sub a b d | mult a b d =>
    exact hR.retire_alike (hR.binOp_alike h a b d fun hu => hR.regWrite_alike hu d) 4
  | jmpu target => exact hR.retire_alike (.done () (hR.setPc_rel h target)) 4
  | jmpc target j =>
    refine hR.retire_alike ((hR.statusRead_alike h j).bind fun taken u u' hu => .done () ?_) 4
    cases taken with
    | true => exact hR.setPc_rel hu target
    | false => exact hu
  | load addr d =>
    have hwrite := hR.regWrite_alike h d (memRead addr t)
    rw [hR.memRead_eq h] at hwrite
    rw [exec, exec, execLoad, execLoad, hR.memRead_eq h]
    exact hR.retire_alike hwrite 2
  | store r addr =>
    exact hR.retire_alike ((hR.regFetch_alike h r).bind fun v _ _ hu => .done () (hR.memWrite_rel hu addr v)) 2

theorem advance_rel (h : R s t) : R s.advance t.advance := by
  rw [State.advance_eq_setPc, State.advance_eq_setPc, hR.pc_eq h]
  exact hR.setPc_rel h _

/-- Every step keeps the relation: related states step to related states, or answer the same fault. -/
theorem step_alike (h : R s t) : OutcomesAlike R (step s) (step t) := by
  have hfind : FiniteMap.find t.prog t.pc = FiniteMap.find s.prog s.pc := by rw [hR.prog_eq h, hR.pc_eq h]
  rcases step_cases s with
    ⟨e, hf, hstep⟩ | ⟨hf, hr, hstep⟩ | ⟨hf, hr, hp, hstep⟩ | ⟨e, hf, hr, hp, hstep⟩ <;> rw [hstep]
  · rw [step_of_fault ((hR.fault_eq h).trans hf)]
    exact .fault _
  · rw [step_of_halted ((hR.fault_eq h).trans hf) ((hR.running_eq h).trans hr)]
    exact .fault _
  · rw [step_of_absent ((hR.fault_eq h).trans hf) ((hR.running_eq h).trans hr) (hfind.trans hp)]
    exact .fault _
  · rw [step_of_entry ((hR.fault_eq h).trans hf) ((hR.running_eq h).trans hr) (hfind.trans hp)]
    cases e with
    | data w => exact .next (hR.advance_rel h)
    | instr i => exact hR.exec_alike (hR.advance_rel h) i

end StepRelation

/-- What a machine does, a machine whose outcome is alike does too. -/
theorem OutcomesAlike.simulates {o o' : Host.Outcome State Fault Refusal} (h : OutcomesAlike R o o') :
    (∀ s', o = .next s' → ∃ t', o' = .next t' ∧ R s' t') ∧ ∀ f, o = .fault f → o' = .fault f := by
  refine ⟨fun s' hs' => ?_, fun f hf => ?_⟩
  · subst hs'
    cases h with
    | next h => exact ⟨_, rfl, h⟩
  · subst hf
    cases h with
    | fault => rfl

/-! ### Coherent machines that differ at most in their caches -/

/-- Two states with the invariant that differ at most in the cache and its capacity. -/
structure CacheTwins (s t : State) : Prop where
  left : s.Inv
  right : t.Inv
  same : s.SameButCache t

/-- The state with another cache of another capacity. -/
def State.withCache (s : State) (c : Cache) (cap : Nat) : State := { s with cache := c, cacheCap := cap }

theorem CacheTwins.diagonal (h : s.Inv) : CacheTwins s s := ⟨h, h, rfl⟩

/-- An operation that keeps the invariant and does not look at the cache keeps the relation. -/
theorem CacheTwins.map (h : CacheTwins s t) (f : State → State) (hinv : ∀ u : State, u.Inv → (f u).Inv)
    (hcache : ∀ (u : State) c cap, (f u).SameButCache (f (u.withCache c cap))) : CacheTwins (f s) (f t) := by
  obtain ⟨hs, ht, hsame⟩ := h
  refine ⟨hinv s hs, hinv t ht, ?_⟩
  rw [show t = s.withCache t.cache t.cacheCap from hsame]
  exact hcache s t.cache t.cacheCap

theorem State.Inv.setCache (h : s.Inv) {c : Cache} (hc : Cache.Coherent s.cacheCap s.x c) : (s.setCache c).Inv :=
  ⟨hc, h.mem, h.prog⟩

theorem State.Inv.setReg (h : s.Inv) {i : Nat} (hi : i < s.nreg) (v : Value) : (s.setReg i v).Inv :=
  ⟨h.cache.update hi, h.mem, h.prog⟩

theorem State.Inv.memWrite (h : s.Inv) (addr : Addr) (v : Value) : (memWrite addr v s).Inv :=
  ⟨h.cache, Memory.wf_memWrite h.mem addr v, h.prog⟩

theorem CacheTwins.nreg (h : CacheTwins s t) : t.nreg = s.nreg := by rw [h.same]; rfl
theorem CacheTwins.nstat (h : CacheTwins s t) : t.nstat = s.nstat := by rw [h.same]; rfl
theorem CacheTwins.reg (h : CacheTwins s t) (i : Nat) : t.reg i = s.reg i := by rw [h.same]; rfl
theorem CacheTwins.flag (h : CacheTwins s t) (j : Nat) : t.flag j = s.flag j := by rw [h.same]; rfl

theorem CacheTwins.raise (h : CacheTwins s t) (e : OperationError) : CacheTwins (s.raise e) (t.raise e) :=
  h.map (State.raise · e) (fun _ hu => ⟨hu.cache, hu.mem, hu.prog⟩) fun _ _ _ => rfl

/-- A fetch answers the register's value from either cache. -/
theorem CacheTwins.regFetch_alike (h : CacheTwins s t) (i : Nat) :
    Access.Alike CacheTwins (regFetch i s) (regFetch i t) := by
  rcases Nat.lt_or_ge i s.nreg with hi | hi
  · obtain ⟨c, hs, hc⟩ := regFetch_coherent h.left.cache hi
    obtain ⟨c', ht, hc'⟩ := regFetch_coherent h.right.cache (h.nreg ▸ hi)
    rw [hs, ht, h.reg]
    refine .done _ ⟨h.left.setCache hc, h.right.setCache hc', ?_⟩
    rw [h.same]
    rfl
  · rw [regFetch_of_le hi, regFetch_of_le (h.nreg ▸ hi)]
    exact .raised (h.raise _)

theorem CacheTwins.regWrite_alike (h : CacheTwins s t) (i : Nat) (v : Value) :
    Access.Alike CacheTwins (regWrite i v s) (regWrite i v t) := by
  rcases Nat.lt_or_ge i s.nreg with hi | hi
  · rw [regWrite_of_lt hi, regWrite_of_lt (h.nreg ▸ hi)]
    refine .done () ⟨h.left.setReg hi v, h.right.setReg (h.nreg ▸ hi) v, ?_⟩
    rw [h.same]
    rfl
  · rw [regWrite_of_le hi, regWrite_of_le (h.nreg ▸ hi)]
    exact .raised (h.raise _)

theorem CacheTwins.statusRead_alike (h : CacheTwins s t) (j : Nat) :
    Access.Alike CacheTwins (statusRead j s) (statusRead j t) := by
  rcases Nat.lt_or_ge j s.nstat with hj | hj
  · rw [statusRead_of_lt hj, statusRead_of_lt (h.nstat ▸ hj), h.flag]
    exact .done _ h
  · rw [statusRead_of_le hj, statusRead_of_le (h.nstat ▸ hj)]
    exact .raised (h.raise _)

theorem CacheTwins.statusWrite_alike (h : CacheTwins s t) (j : Nat) (b : Bool) :
    Access.Alike CacheTwins (statusWrite j b s) (statusWrite j b t) := by
  rcases Nat.lt_or_ge j s.nstat with hj | hj
  · rw [statusWrite_of_lt hj, statusWrite_of_lt (h.nstat ▸ hj)]
    exact .done () (h.map (State.setFlag · j b) (fun _ hu => ⟨hu.cache, hu.mem, hu.prog⟩) fun _ _ _ => rfl)
  · rw [statusWrite_of_le hj, statusWrite_of_le (h.nstat ▸ hj)]
    exact .raised (h.raise _)

/-- No operation tells two coherent caches apart. -/
theorem cacheTwins_stepRelation : StepRelation CacheTwins where
  fault_eq h := by rw [h.same]
  running_eq h := by rw [h.same]
  pc_eq h := by rw [h.same]
  prog_eq h := by rw [h.same]
  setPc_rel h target := h.map (State.setPc · target) (fun _ hu => ⟨hu.cache, hu.mem, hu.prog⟩) fun _ _ _ => rfl
  stopRun_rel h := h.map State.stopRun (fun _ hu => ⟨hu.cache, hu.mem, hu.prog⟩) fun _ _ _ => rfl
  addCost_rel h n := h.map (State.addCost · n) (fun _ hu => ⟨hu.cache, hu.mem, hu.prog⟩) fun _ _ _ => rfl
  memRead_eq h addr := by rw [h.same]; rfl
  memWrite_rel h addr v := h.map (memWrite addr v) (fun _ hu => hu.memWrite addr v) fun _ _ _ => rfl
  regFetch_alike := CacheTwins.regFetch_alike
  regWrite_alike := CacheTwins.regWrite_alike
  statusRead_alike := CacheTwins.statusRead_alike
  statusWrite_alike := CacheTwins.statusWrite_alike

/-- Settles O30: a machine with the invariant is its own cache twin, and the twins' next states have the invariant. -/
theorem everyStepKeepsTheInvariant : Obligations.EveryStepKeepsTheInvariant := by
  intro s t hs hstep
  obtain ⟨t', -, htwins⟩ := (cacheTwins_stepRelation.step_alike (.diagonal hs)).simulates.1 t hstep
  exact htwins.left

/-- Settles O32: the machines are cache twins, and every step keeps that. -/
theorem noProgramObservesTheCache : Obligations.NoProgramObservesTheCache := by
  intro s t hs ht hsame
  obtain ⟨hnext, hfault⟩ := (cacheTwins_stepRelation.step_alike ⟨hs, ht, hsame⟩).simulates
  refine ⟨fun s' hs' => ?_, hfault⟩
  obtain ⟨t', ht', htwins⟩ := hnext s' hs'
  exact ⟨t', ht', htwins.same⟩

/-! ### Machines whose costs differ by a constant -/

/-- The second state is the first with `k` more cost. -/
def CostShift (k : Nat) (s t : State) : Prop := t = s.addCost k

theorem State.addCost_right_comm (s : State) (k n : Nat) : (s.addCost k).addCost n = (s.addCost n).addCost k := by
  simp only [State.addCost, Nat.add_right_comm]

theorem CostShift.regFetch_alike {k : Nat} (h : CostShift k s t) (i : Nat) :
    Access.Alike (CostShift k) (regFetch i s) (regFetch i t) := by
  cases h
  rcases Nat.lt_or_ge i s.nreg with hi | hi
  · cases hf : Cache.find s.cache i with
    | some v =>
      rw [regFetch_of_hit hi hf, regFetch_of_hit (s := s.addCost k) hi hf]
      exact .done v rfl
    | none =>
      rw [regFetch_of_miss hi hf, regFetch_of_miss (s := s.addCost k) hi hf]
      exact .done (s.reg i) rfl
  · rw [regFetch_of_le hi, regFetch_of_le (s := s.addCost k) hi]
    exact .raised rfl

theorem CostShift.regWrite_alike {k : Nat} (h : CostShift k s t) (i : Nat) (v : Value) :
    Access.Alike (CostShift k) (regWrite i v s) (regWrite i v t) := by
  cases h
  rcases Nat.lt_or_ge i s.nreg with hi | hi
  · rw [regWrite_of_lt hi, regWrite_of_lt (s := s.addCost k) hi]
    exact .done () rfl
  · rw [regWrite_of_le hi, regWrite_of_le (s := s.addCost k) hi]
    exact .raised rfl

theorem CostShift.statusRead_alike {k : Nat} (h : CostShift k s t) (j : Nat) :
    Access.Alike (CostShift k) (statusRead j s) (statusRead j t) := by
  cases h
  rcases Nat.lt_or_ge j s.nstat with hj | hj
  · rw [statusRead_of_lt hj, statusRead_of_lt (s := s.addCost k) hj]
    exact .done (s.flag j) rfl
  · rw [statusRead_of_le hj, statusRead_of_le (s := s.addCost k) hj]
    exact .raised rfl

theorem CostShift.statusWrite_alike {k : Nat} (h : CostShift k s t) (j : Nat) (b : Bool) :
    Access.Alike (CostShift k) (statusWrite j b s) (statusWrite j b t) := by
  cases h
  rcases Nat.lt_or_ge j s.nstat with hj | hj
  · rw [statusWrite_of_lt hj, statusWrite_of_lt (s := s.addCost k) hj]
    exact .done () rfl
  · rw [statusWrite_of_le hj, statusWrite_of_le (s := s.addCost k) hj]
    exact .raised rfl

/-- No operation looks at the cost. -/
theorem costShift_stepRelation (k : Nat) : StepRelation (CostShift k) where
  fault_eq h := by rw [h]; rfl
  running_eq h := by rw [h]; rfl
  pc_eq h := by rw [h]; rfl
  prog_eq h := by rw [h]; rfl
  setPc_rel h _ := by rw [h]; rfl
  stopRun_rel h := by rw [h]; rfl
  addCost_rel h n := by rw [h]; exact State.addCost_right_comm _ k n
  memRead_eq h _ := by rw [h]; rfl
  memWrite_rel h _ _ := by rw [h]; rfl
  regFetch_alike := CostShift.regFetch_alike
  regWrite_alike := CostShift.regWrite_alike
  statusRead_alike := CostShift.statusRead_alike
  statusWrite_alike := CostShift.statusWrite_alike

/-- Settles O16: the two machines differ by `k` in their costs, and every step keeps that. -/
theorem costIsNeverUsedForControl : Obligations.CostIsNeverUsedForControl := by
  intro s k
  obtain ⟨hnext, hfault⟩ := ((costShift_stepRelation k).step_alike (s := s) rfl).simulates
  refine ⟨fun t ht => ?_, hfault⟩
  obtain ⟨t', ht', hshift⟩ := hnext t ht
  exact ht'.trans (congrArg _ hshift)

end Sys2Proof.Machine
end

section
/-! The cycle (40_execution_cycle.md R130 to R140): what a step that has a next state did, read off the fetched entry and
`exec_control`. -/

namespace Sys2Proof.Machine

variable {s t : State} {i : Instr}

/-! ### Steps that have a next state -/

/-- A step that has a next state fetched an entry in a running state with a clear latch: it skipped a Data entry or
executed an instruction. -/
theorem step_next (h : step s = .next t) :
    s.fault = none ∧ s.running = true ∧
      ((∃ w, FiniteMap.find s.prog s.pc = some (.data w) ∧ t = s.advance) ∨
        (∃ i, FiniteMap.find s.prog s.pc = some (.instr i) ∧ exec i s.advance = .next t)) := by
  rcases step_cases s with ⟨e, -, hs⟩ | ⟨-, -, hs⟩ | ⟨-, -, -, hs⟩ | ⟨e, hf, hr, hp, hs⟩ <;> rw [hs] at h
  · cases h
  · cases h
  · cases h
  · refine ⟨hf, hr, ?_⟩
    cases e with
    | data w => cases h; exact .inl ⟨w, hp, rfl⟩
    | instr i => exact .inr ⟨i, hp, h⟩

/-- The step of an instruction is its execution after the fetch. -/
theorem step_of_instr (hf : s.fault = none) (hr : s.running = true)
    (hp : FiniteMap.find s.prog s.pc = some (.instr i)) : step s = exec i s.advance := step_of_entry hf hr hp

/-- A step that runs an instruction executed it. -/
theorem exec_of_step (hp : FiniteMap.find s.prog s.pc = some (.instr i)) (h : step s = .next t) :
    exec i s.advance = .next t := by
  obtain ⟨hf, hr, -⟩ := step_next h
  rwa [step_of_instr hf hr hp] at h

/-- What the instruction after a fetch does to a state with a clear latch: if it sets the latch it raised its first
access out of range, if not it completed. -/
theorem exec_after_fetch (hf : s.fault = none) (h : exec i s.advance = .next t) :
    (t.fault ≠ none ∧ ∃ c e, (registerAccesses i).find? s.outside = some e ∧ t = (s.advance.setCache c).raise e) ∨
      (t.fault = none ∧ (registerAccesses i).find? s.outside = none ∧ t.cost = s.cost + cost i ∧
        t.running = (if i = .halt then false else s.running) ∧ t.pc = pcAfter i s.advance) := by
  rcases exec_control h with ⟨c, e, he, rfl⟩ | ⟨hnone, hfault, hcost, hrun, hpc, -⟩
  · exact .inl ⟨Option.some_ne_none e, c, e, he, rfl⟩
  · exact .inr ⟨hfault.trans hf, hnone, hcost, hrun, hpc⟩

/-- Only a JMP leaves the program counter anywhere but after the fetched address. -/
theorem pcAfter_cases (i : Instr) (s : State) :
    pcAfter i s = s.pc ∨ i = .jmpu (pcAfter i s) ∨ ∃ j, i = .jmpc (pcAfter i s) j := by
  cases i with
  | jmpu target => exact .inr (.inl rfl)
  | jmpc target j =>
    cases hj : s.flag j with
    | true => exact .inr (.inr ⟨j, by simp [pcAfter, hj]⟩)
    | false => exact .inl (by simp [pcAfter, hj])
  | _ => exact .inl rfl

/-- The cost of an instruction, by its label. -/
theorem cost_eq (i : Instr) :
    cost i = if i = .nop ∨ i = .halt then 0 else if i.label = .load ∨ i.label = .store then 2 else 4 := by
  cases i <;> simp [cost, Instr.label]

/-- Settles O11: the terminal answers are no next states; the fetched entry runs on the advanced state, and
`exec_control` says what its execution does to the cost, the latch and the program counter. -/
theorem stepRunsTheFetchedEntry : Obligations.StepRunsTheFetchedEntry := by
  intro s
  refine ⟨fun hstop t ht => ?_, fun hf hr => ⟨fun w hp => step_of_entry hf hr hp, fun i hp =>
    ⟨step_of_instr hf hr hp, fun t ht => ?_⟩⟩⟩
  · obtain ⟨hf, hr, ⟨w, hp, -⟩ | ⟨i, hp, -⟩⟩ := step_next ht <;> simp [hf, hr, hp] at hstop
  · rcases exec_after_fetch hf ht with ⟨hfault, c, e, he, rfl⟩ | ⟨hfault, -, hcost, -, hpc⟩
    · refine ⟨fun h => absurd h hfault, fun _ => ⟨rfl, rfl⟩, fun h => absurd rfl h, ?_⟩
      rintro target rfl
      cases he
    · refine ⟨fun _ => hcost, fun h => absurd hfault h, fun hjump => ⟨t.pc, rfl, ?_⟩, ?_⟩
      · rw [hpc] at hjump ⊢
        exact (pcAfter_cases i s.advance).resolve_left hjump
      · rintro target rfl
        exact hpc

/-- Settles O12: the word stands at the fetch address as the instruction it decodes to. -/
theorem loadedWordIsRunByTheNextStep : Obligations.LoadedWordIsRunByTheNextStep := by
  intro s nbits w i hi hf hr
  have heq := withFetchWord_of_decode hi s
  refine ⟨?_, heq⟩
  rw [heq]
  exact step_of_instr hf hr (FiniteMap.find_bind_same _ _ _)

/-- Every instruction ends: it retires an access, completed or raised. -/
theorem exec_total (i : Instr) (s : State) : ∃ t, exec i s = .next t := by
  have hretire : ∀ n m, ∃ t, retire n m = .next t := fun n m => by cases m <;> exact ⟨_, rfl⟩
  cases i with
  | nop | halt | jmpu target => exact ⟨_, rfl⟩
  | _ => exact hretire _ _

/-- Every entry ends. -/
theorem execEntry_total (e : Entry) (s : State) : ∃ t, execEntry e s = .next t := by
  cases e with
  | data w => exact ⟨_, rfl⟩
  | instr i => exact exec_total i s.advance

/-- A step that answers a fault found its terminal case. -/
theorem step_fault_cases {f : Fault} (h : step s = .fault f) :
    (∃ e, s.fault = some e ∧ f = .aborted e) ∨
      (s.fault = none ∧ s.running = false ∧ f = .halted) ∨
      (s.fault = none ∧ s.running = true ∧ FiniteMap.find s.prog s.pc = none ∧ f = .ranOffEnd) := by
  rcases step_cases s with ⟨e, hf, hs⟩ | ⟨hf, hr, hs⟩ | ⟨hf, hr, hp, hs⟩ | ⟨e, -, -, -, hs⟩ <;> rw [hs] at h
  · cases h; exact .inl ⟨e, hf, rfl⟩
  · cases h; exact .inr (.inl ⟨hf, hr, rfl⟩)
  · cases h; exact .inr (.inr ⟨hf, hr, hp, rfl⟩)
  · obtain ⟨t, ht⟩ := execEntry_total e s
    rw [ht] at h
    cases h

/-- The classification of a state names the fault its step answers. -/
theorem terminal?_eq_some_iff {f : Fault} : s.terminal? = some f ↔ step s = .fault f := by
  refine ⟨step_of_terminal, fun h => ?_⟩
  rcases step_fault_cases h with ⟨e, hf, rfl⟩ | ⟨hf, hr, rfl⟩ | ⟨hf, hr, hp, rfl⟩
  · simp [State.terminal?, hf]
  · simp [State.terminal?, hf, hr]
  · simp [State.terminal?, hf, hr, hp]

/-- A step starts with the run flag set, and clears it exactly for a HALT. -/
theorem step_running (h : step s = .next t) :
    s.running = true ∧ (t.running = false ↔ FiniteMap.find s.prog s.pc = some (.instr .halt)) := by
  obtain ⟨hf, hr, ⟨w, hp, rfl⟩ | ⟨i, hp, hexec⟩⟩ := step_next h
  · exact ⟨hr, by simp [hr, hp]⟩
  · refine ⟨hr, ?_⟩
    rw [hp]
    rcases exec_after_fetch hf hexec with ⟨-, c, e, he, rfl⟩ | ⟨-, -, -, hrun, -⟩
    · have hne : i ≠ .halt := by rintro rfl; cases he
      simp [hr, hne]
    · rw [hrun]
      by_cases hi : i = .halt <;> simp [hi, hr]

/-- Settles O18: `step_running`, from the run flag after a completed instruction and after a raise. -/
theorem onlyHaltClearsTheRunFlag : Obligations.OnlyHaltClearsTheRunFlag := fun _ _ => step_running

/-- Settles O13: each terminal case excludes the others; a step into a halted state cleared the run flag, which only HALT
does. -/
theorem stepStopsExactlyInTheTerminalCases : Obligations.StepStopsExactlyInTheTerminalCases := by
  intro s
  have hhalted : ∀ u : State, step u = .fault .halted → u.fault = none ∧ u.running = false := fun u h => by
    obtain ⟨e, -, hne⟩ | ⟨hf, hr, -⟩ | ⟨-, -, -, hne⟩ := step_fault_cases h
    · cases hne
    · exact ⟨hf, hr⟩
    · cases hne
  refine ⟨⟨hhalted s, fun ⟨hf, hr⟩ => step_of_halted hf hr⟩, ⟨fun h => ?_, fun ⟨hf, hr, hp⟩ => step_of_absent hf hr hp⟩,
    fun e => ⟨fun h => ?_, step_of_fault⟩, fun f => terminal?_eq_some_iff, fun t ht hstop => ?_⟩
  · obtain ⟨e, -, hne⟩ | ⟨-, -, hne⟩ | ⟨hf, hr, hp, -⟩ := step_fault_cases h
    · cases hne
    · cases hne
    · exact ⟨hf, hr, hp⟩
  · obtain ⟨e', hf, heq⟩ | ⟨-, -, hne⟩ | ⟨-, -, -, hne⟩ := step_fault_cases h
    · cases heq; exact hf
    · cases hne
    · cases hne
  · have hp := (step_running ht).2.mp (hhalted t hstop).2
    have hexec := exec_of_step hp ht
    cases hexec
    exact ⟨hp, rfl⟩

/-- Settles O14: a state whose step has no next state is terminal, and every entry ends. -/
theorem everyNonTerminalStateSteps : Obligations.EveryNonTerminalStateSteps := by
  have hrefused : ∀ (s : State) r, step s ≠ .refused r := fun s r h => by
    rcases step_cases s with ⟨e, -, hs⟩ | ⟨-, -, hs⟩ | ⟨-, -, -, hs⟩ | ⟨e, -, -, -, hs⟩ <;> rw [hs] at h
    · cases h
    · cases h
    · cases h
    · obtain ⟨t, ht⟩ := execEntry_total e s
      rw [ht] at h
      cases h
  refine ⟨fun s hs => ?_, exec_total, hrefused⟩
  cases hstep : step s with
  | next t => exact ⟨t, rfl⟩
  | fault f => rw [terminal?_eq_some_iff.mpr hstep] at hs; cases hs
  | refused r => exact absurd hstep (hrefused s r)

/-- Settles O15: a Data entry and a raise leave the cost, a completed instruction adds its own. -/
theorem stepAddsTheFixedCost : Obligations.StepAddsTheFixedCost := by
  intro s t h
  obtain ⟨hf, hr, ⟨w, hp, rfl⟩ | ⟨i, hp, hexec⟩⟩ := step_next h
  · refine ⟨fun _ _ => rfl, fun i hi => ?_, fun hfault => absurd hf hfault, le_rfl⟩
    rw [hp] at hi
    cases hi
  · refine ⟨fun w hw => (by rw [hp] at hw; cases hw), ?_⟩
    rcases exec_after_fetch hf hexec with ⟨hfault, c, e, -, rfl⟩ | ⟨hfault, -, hcost, -⟩
    · exact ⟨fun _ _ h => absurd h hfault, fun _ => rfl, le_rfl⟩
    · refine ⟨fun i' hi' _ => ?_, fun h => absurd hfault h, hcost ▸ Nat.le_add_right _ _⟩
      rw [hp] at hi'
      cases hi'
      rw [hcost, cost_eq]

/-- A step keeps the program store and the three sizes. -/
theorem step_keeps_program_and_sizes (h : step s = .next t) :
    t.prog = s.prog ∧ t.nreg = s.nreg ∧ t.nstat = s.nstat ∧ t.cacheCap = s.cacheCap := by
  obtain ⟨-, -, ⟨w, -, rfl⟩ | ⟨i, -, hexec⟩⟩ := step_next h
  · exact ⟨rfl, rfl, rfl, rfl⟩
  · rcases exec_control hexec with ⟨c, e, -, rfl⟩ | ⟨-, -, -, -, -, hprog, hcap, hnreg, hnstat⟩
    · exact ⟨rfl, rfl, rfl, rfl⟩
    · exact ⟨hprog, hnreg, hnstat, hcap⟩

/-- Settles O17: the parameters are the sizes of the register files and the capacity. -/
theorem parametersAndProgramNeverChange : Obligations.ParametersAndProgramNeverChange := by
  intro s t h
  obtain ⟨hprog, hnreg, hnstat, hcap⟩ := step_keeps_program_and_sizes h
  exact ⟨by rw [State.config, State.config, hnreg, hnstat, hcap], hprog⟩

/-! ### Aborts -/

/-- Settles O42: the latch is the first access out of range of the state after the fetch, which has the register files of
the state before it. -/
theorem firstIndexOutOfRangeAbortsTheRun : Obligations.FirstIndexOutOfRangeAbortsTheRun := by
  intro s t i hp h
  obtain ⟨hf, -⟩ := step_next h
  rcases exec_after_fetch hf (exec_of_step hp h) with ⟨-, c, e, he, rfl⟩ | ⟨hfault, hnone, -⟩
  · refine ⟨he.symm, fun e' he' => ?_⟩
    cases he'
    exact ⟨rfl, step_of_fault rfl⟩
  · exact ⟨hfault.trans hnone.symm, fun e he => by rw [hfault] at he; cases he⟩

/-- An instruction in range has no access out of range. -/
theorem registerAccesses_find_none (h : i.inRange s.nreg s.nstat = true) :
    (registerAccesses i).find? s.outside = none := by
  cases i with
  | nop | halt | jmpu target => rfl
  | cmp a b d | cne a b d | add a b d | sub a b d | mult a b d =>
    simp only [Instr.inRange, Bool.and_eq_true, decide_eq_true_eq] at h
    obtain ⟨⟨ha, hb⟩, hd⟩ := h
    rw [registerAccesses, find_outside_destination ha hb]
    simp [State.outside, hd]
  | jmpc target j => simpa [Instr.inRange, registerAccesses, State.outside] using h
  | load addr d => simpa [Instr.inRange, registerAccesses, State.outside] using h
  | store r addr => simpa [Instr.inRange, registerAccesses, State.outside] using h

/-- A running program all of whose register indices are in range. -/
structure State.InRange (s : State) : Prop where
  clear : s.fault = none
  prog : ∀ a i, FiniteMap.find s.prog a = some (.instr i) → i.inRange s.nreg s.nstat = true

/-- A step of a program in range keeps the latch clear and the program in range. -/
theorem State.InRange.step (h : s.InRange) (hstep : step s = .next t) : t.InRange := by
  obtain ⟨hprog, hnreg, hnstat, -⟩ := step_keeps_program_and_sizes hstep
  refine ⟨?_, fun a i hi => ?_⟩
  · obtain ⟨-, -, ⟨w, -, rfl⟩ | ⟨i, hp, hexec⟩⟩ := step_next hstep
    · exact h.clear
    · rcases exec_after_fetch h.clear hexec with ⟨-, c, e, he, -⟩ | ⟨hfault, -⟩
      · rw [registerAccesses_find_none (h.prog _ i hp)] at he
        cases he
      · exact hfault
  · rw [hprog] at hi
    rw [hnreg, hnstat]
    exact h.prog a i hi

/-- Any number of steps of a program in range leads to a clear latch. -/
theorem State.InRange.run {n : Nat} (h : s.InRange) (hrun : Host.Core.run core n s = .next t) : t.InRange := by
  induction n generalizing s with
  | zero => cases hrun; exact h
  | succ n ih =>
    obtain ⟨u, hstep, hrest⟩ := core_run_succ_next hrun
    exact ih (h.step hstep) hrest

/-- Settles O43: being in range with a clear latch is kept by every step. -/
theorem programsInRangeNeverAbort : Obligations.ProgramsInRangeNeverAbort := by
  intro s hclear hprog n t hrun haborted
  have ht : t.InRange := State.InRange.run ⟨hclear, hprog⟩ hrun
  rw [State.Aborted, ht.clear] at haborted
  cases haborted

end Sys2Proof.Machine
end

section
/-! What each instruction does with a coherent cache and its operands in range, and where it aborts (40_execution_cycle.md
R135, R139, 42_compare.md to 45_jump.md). -/

namespace Sys2Proof.Machine

variable {s : State} {o a b : Src} {d i j n : Nat}

/-! ### Reads through a coherent cache -/

/-- The cache without a register it does not hold is the cache itself. -/
theorem Cache.remove_eq_self {c : Cache} (h : Cache.find c i = none) : Cache.remove c i = c := by
  refine List.filter_eq_self.mpr fun e he => ?_
  have hne : e.1 ≠ i := fun heq => Cache.not_mem_of_find_none h (heq ▸ List.mem_map_of_mem he)
  simpa using hne

/-- A promotion evicts nothing: the entry it moves was in the cache. -/
theorem Cache.promote_eq_lruTouch (hc : Cache.Coherent s.cacheCap s.x s.cache)
    (hf : Cache.find s.cache i = some (s.reg i)) :
    Cache.promote s.cache i (s.reg i) = s.lruTouch s.cache (.reg i) :=
  (if_neg (Nat.not_lt.mpr (hc.promote hf).capacity)).symm

/-- An insertion is the touch of a register that is not cached. -/
theorem Cache.insert_eq_lruTouch (hf : Cache.find s.cache i = none) :
    Cache.insert s.cacheCap s.cache i (s.reg i) = s.lruTouch s.cache (.reg i) := by
  have hremove : s.cache.filter (fun e => e.1 != i) = s.cache := Cache.remove_eq_self hf
  rw [State.lruTouch, hremove, Cache.insert]

/-- With a coherent cache a fetch in range answers the register's value and touches its entry. -/
theorem regFetch_lru (hc : Cache.Coherent s.cacheCap s.x s.cache) (hi : i < s.nreg) :
    regFetch i s = .done (s.reg i) (s.setCache (s.lruTouch s.cache (.reg i))) := by
  cases hf : Cache.find s.cache i with
  | none => rw [regFetch_of_miss hi hf, Cache.insert_eq_lruTouch hf]
  | some v =>
    obtain rfl : s.reg i = v := Option.some.inj ((s.getElem?_x hi).symm.trans (hc.of_find hf))
    rw [regFetch_of_hit hi hf, Cache.promote_eq_lruTouch hc hf]

/-- With a coherent cache an operand in range resolves to its value and touches the cache. -/
theorem resolve_lru (hc : Cache.Coherent s.cacheCap s.x s.cache) (ho : o.inRange s.nreg = true) :
    resolve o s = .done (s.srcValue o) (s.setCache (s.lruTouch s.cache o)) := by
  cases o with
  | lit n => rfl
  | reg i => exact regFetch_lru hc (by simpa [Src.inRange] using ho)

/-- The touched cache is coherent: it is the cache the resolution leaves. -/
theorem Cache.Coherent.lruTouch (hc : Cache.Coherent s.cacheCap s.x s.cache) (ho : o.inRange s.nreg = true) :
    Cache.Coherent s.cacheCap s.x (s.lruTouch s.cache o) := by
  obtain ⟨c, hres, hcoh⟩ := resolve_coherent hc ho
  rw [resolve_lru hc ho] at hres
  injection hres with _ hstate
  have hcache : s.lruTouch s.cache o = c := congrArg State.cache hstate
  rwa [hcache]

/-- An operand out of range is a register reference, and its resolution only latches the error. -/
theorem resolve_of_not_inRange (ho : o.inRange s.nreg = false) :
    ∃ i, o = .reg i ∧ resolve o s = .raised (s.raise (dataIndexError i)) := by
  cases o with
  | lit n => cases ho
  | reg i => exact ⟨i, rfl, regFetch_of_le (by simpa [Src.inRange] using ho)⟩

/-- Settles O23: a literal needs no access, a reference is a fetch, whose effect on a coherent cache is the touch. -/
theorem resolveReadsLiteralOrRegister : Obligations.ResolveReadsLiteralOrRegister :=
  ⟨resolve_lit, resolve_reg, fun _ _ hc ho => ⟨resolve_lru hc ho, hc.lruTouch ho⟩, fun _ _ => resolve_of_not_inRange⟩

/-- Operand 2 in the state operand 1 leaves: its value is the same, and the cache is touched again. -/
theorem resolve_resolve_lru (hc : Cache.Coherent s.cacheCap s.x s.cache) (ha : a.inRange s.nreg = true)
    (hb : b.inRange s.nreg = true) :
    resolve b (s.setCache (s.lruTouch s.cache a)) = .done (s.srcValue b) (s.setCache (s.lruTouchBoth a b)) := by
  rw [resolve_lru (s := s.setCache (s.lruTouch s.cache a)) (hc.lruTouch ha) hb]
  cases b <;> rfl

section BinOp
variable {β : Type} {f : Value → Value → β} {wb : Nat → β → State → Access Unit}

/-- With a coherent cache and sources in range, the destination is written with the function of the sources' values, in
the state after both touches. -/
theorem binOp_lru (hc : Cache.Coherent s.cacheCap s.x s.cache) (ha : a.inRange s.nreg = true)
    (hb : b.inRange s.nreg = true) :
    binOp f a b d wb s = wb d (f (s.srcValue a) (s.srcValue b)) (s.setCache (s.lruTouchBoth a b)) := by
  rw [binOp, resolve_lru hc ha, Access.bind_done, resolve_resolve_lru hc ha hb, Access.bind_done]

/-- Operand 1 out of range raises at once. -/
theorem binOp_raise_first (hi : s.nreg ≤ i) :
    binOp f (.reg i) b d wb s = .raised (s.raise (dataIndexError i)) := by
  rw [binOp, resolve_reg, regFetch_of_le hi, Access.bind_raised]

/-- Operand 2 out of range raises after operand 1 was touched. -/
theorem binOp_raise_second (hc : Cache.Coherent s.cacheCap s.x s.cache) (ha : a.inRange s.nreg = true)
    (hi : s.nreg ≤ i) :
    binOp f a (.reg i) d wb s = .raised ((s.setCache (s.lruTouch s.cache a)).raise (dataIndexError i)) := by
  rw [binOp, resolve_lru hc ha, Access.bind_done, resolve_reg,
    regFetch_of_le (s := s.setCache (s.lruTouch s.cache a)) hi, Access.bind_raised]

/-- Where a three-operand operation raises, when its destination write raises out of range. -/
theorem binOp_raises_in_order {file : RegFile} (hc : Cache.Coherent s.cacheCap s.x s.cache)
    (hout : ∀ u v, u.outside ⟨file, d⟩ = true → wb d v u = .raised (u.raise ⟨file, d⟩)) :
    (∀ i, a = .reg i → s.nreg ≤ i →
        retire n (binOp f a b d wb s) = .next { s with fault := some ⟨.data, i⟩ }) ∧
      (∀ i, a.inRange s.nreg = true → b = .reg i → s.nreg ≤ i → retire n (binOp f a b d wb s) =
        .next { s with cache := s.lruTouch s.cache a, fault := some ⟨.data, i⟩ }) ∧
      (a.inRange s.nreg = true → b.inRange s.nreg = true → s.outside ⟨file, d⟩ = true →
        retire n (binOp f a b d wb s) = .next { s with cache := s.lruTouchBoth a b, fault := some ⟨file, d⟩ }) := by
  refine ⟨?_, ?_, fun ha hb ho => ?_⟩
  · rintro i rfl hi
    rw [binOp_raise_first hi]
    rfl
  · rintro i ha rfl hi
    rw [binOp_raise_second hc ha hi]
    rfl
  · rw [binOp_lru hc ha hb, hout _ _ (by cases file <;> exact ho)]
    rfl

end BinOp

/-! ### CMP, CNE, ADD, SUB, MULT -/

/-- A three-operand operation with a status-register destination in range. -/
theorem binOp_statusWrite_lru {f : Value → Value → Bool} (hc : Cache.Coherent s.cacheCap s.x s.cache)
    (ha : a.inRange s.nreg = true) (hb : b.inRange s.nreg = true) (hd : d < s.nstat) :
    retire n (binOp f a b d statusWrite s) = .next { s with
      status := s.status.set d (f (s.srcValue a) (s.srcValue b)),
      cache := s.lruTouchBoth a b, cost := s.cost + n } := by
  rw [binOp_lru hc ha hb, statusWrite_of_lt (s := s.setCache (s.lruTouchBoth a b)) hd]
  rfl

/-- Settles O35: the two conditions are the functions of `binOp_statusWrite_lru`. -/
theorem compareWritesTheCondition : Obligations.CompareWritesTheCondition := by
  intro a b d s hc ha hb hd
  refine ⟨binOp_statusWrite_lru hc ha hb hd, ?_⟩
  rw [← decide_not]
  exact binOp_statusWrite_lru hc ha hb hd

/-- A three-operand operation with a data-register destination in range. -/
theorem binOp_regWrite_lru {f : Value → Value → Value} (hc : Cache.Coherent s.cacheCap s.x s.cache)
    (ha : a.inRange s.nreg = true) (hb : b.inRange s.nreg = true) (hd : d < s.nreg) :
    ∃ t, retire n (binOp f a b d regWrite s) = .next t ∧
      (∀ k, t.reg k = if k = d then f (s.srcValue a) (s.srcValue b) else s.reg k) ∧
      t = { s with x := t.x, cost := s.cost + n, cache := (s.lruTouchBoth a b).map fun e =>
        if e.1 = d then (d, f (s.srcValue a) (s.srcValue b)) else e } := by
  refine ⟨((s.setCache (s.lruTouchBoth a b)).setReg d (f (s.srcValue a) (s.srcValue b))).addCost n, ?_, fun k => ?_, rfl⟩
  · rw [binOp_lru hc ha hb, regWrite_of_lt (s := s.setCache (s.lruTouchBoth a b)) hd, retire_done]
  · exact State.setReg_reg (s := s.setCache _) hd _ k

/-- Settles O36: the three results are the functions of `binOp_regWrite_lru`. -/
theorem arithmeticWritesTheExactResult : Obligations.ArithmeticWritesTheExactResult :=
  fun _ _ _ _ hc ha hb hd =>
    ⟨binOp_regWrite_lru hc ha hb hd, binOp_regWrite_lru hc ha hb hd, binOp_regWrite_lru hc ha hb hd⟩

/-- Settles O40: all five instructions are `binOp`s, whose destination writes raise out of range. -/
theorem threeOperandFormsRaiseInOrder : Obligations.ThreeOperandFormsRaiseInOrder := by
  have hdata : ∀ (d : Nat) u v, u.outside ⟨.data, d⟩ = true → regWrite d v u = .raised (u.raise ⟨.data, d⟩) :=
    fun d u v hu => regWrite_of_le (by simpa [State.outside] using hu) v
  have hstatus : ∀ (d : Nat) u v, u.outside ⟨.status, d⟩ = true → statusWrite d v u = .raised (u.raise ⟨.status, d⟩) :=
    fun d u v hu => statusWrite_of_le (by simpa [State.outside] using hu) v
  rintro a b d s op file hc (⟨rfl | rfl | rfl, rfl⟩ | ⟨rfl | rfl, rfl⟩)
  · exact binOp_raises_in_order hc (hdata d)
  · exact binOp_raises_in_order hc (hdata d)
  · exact binOp_raises_in_order hc (hdata d)
  · exact binOp_raises_in_order hc (hstatus d)
  · exact binOp_raises_in_order hc (hstatus d)

/-! ### LOAD, STORE, JMP, NOP, HALT -/

/-- Settles O37: a LOAD in range is a register write of the cell's value. -/
theorem loadCopiesTheCell : Obligations.LoadCopiesTheCell := by
  intro addr d s hd
  exact ⟨_, execLoad_of_lt hd, State.setReg_reg s hd (memRead addr s), rfl⟩

/-- Settles O38: the register is fetched through the coherent cache and its value bound to the cell. -/
theorem storeBindsTheCell : Obligations.StoreBindsTheCell := by
  intro r addr s hc hr
  refine ⟨(memWrite addr (s.reg r) (s.setCache (s.lruTouch s.cache (.reg r)))).addCost 2, ?_, fun a => ?_, rfl⟩
  · rw [exec, execStore, regFetch_lru hc hr]
    rfl
  · exact FiniteMap.find_bind s.mem addr (s.reg r) a

/-- Settles O39: the conditional form is the equation of `execJmpc` in range. -/
theorem jumpSetsTheCounter : Obligations.JumpSetsTheCounter := by
  refine ⟨fun target s => rfl, fun target j s hj => (execJmpc_of_lt hj).trans ?_⟩
  cases hf : s.flag j <;> rfl

/-- Settles O41: the three raises are equations of the meanings. -/
theorem loadStoreJumpRaiseWithoutEffect : Obligations.LoadStoreJumpRaiseWithoutEffect :=
  ⟨fun _ _ _ hd => execLoad_of_le hd, fun _ _ _ hr => execStore_of_le hr, fun _ _ _ hj => execJmpc_of_le hj⟩

/-- Settles O33: NOP retires at once. -/
theorem nopChangesNothing : Obligations.NopChangesNothing := fun _ => ⟨rfl, fun hf hr hp => step_of_instr hf hr hp⟩

/-- Settles O34: HALT clears the run flag, and a state with the run flag false is halted. -/
theorem haltStopsTheRun : Obligations.HaltStopsTheRun :=
  fun _ => ⟨rfl, fun hf hr hp => ⟨step_of_instr hf hr hp, step_of_halted hf rfl⟩⟩

/-- Settles O21: the two status accesses, out of range and in range. -/
theorem statusAccessIsBoundsChecked : Obligations.StatusAccessIsBoundsChecked := by
  intro s j b
  refine ⟨fun hj => ⟨statusRead_of_le hj, statusWrite_of_le hj b⟩, fun hj => ⟨statusRead_of_lt hj, ?_⟩⟩
  exact ⟨s.setFlag j b, statusWrite_of_lt hj b, s.setFlag_nstat j b, s.setFlag_flag hj b, rfl⟩

end Sys2Proof.Machine
end

section
/-! What each instruction leaves unchanged on any operands (40_execution_cycle.md R141), read off the two ways it ends. -/

namespace Sys2Proof.Machine

variable {s t : State} {a b : Src} {d j r : Nat} {addr target : Addr}

/-! ### How the instructions end -/

/-- The conditional JMP may change the program counter, or it only latches the error. -/
theorem exec_jmpc_cases (h : exec (.jmpc target j) s = .next t) :
    (∃ pc, t = (s.setPc pc).addCost 4) ∨ t = s.raise (statusIndexError j) := by
  rcases Nat.lt_or_ge j s.nstat with hj | hj
  · rw [exec, execJmpc_of_lt hj] at h
    cases h
    cases s.flag j with
    | true => exact .inl ⟨target, rfl⟩
    | false => exact .inl ⟨s.pc, rfl⟩
  · rw [exec, execJmpc_of_le hj] at h
    cases h
    exact .inr rfl

/-- CMP and CNE write their destination, or latch an error; besides that only the cache changes. -/
theorem exec_compare_cases (h : exec (.cmp a b d) s = .next t ∨ exec (.cne a b d) s = .next t) :
    (∃ c v, d < s.nstat ∧ t = ((s.setCache c).setFlag d v).addCost 4) ∨ ∃ c e, t = (s.setCache c).raise e := by
  have hends : ∀ f, retire 4 (binOp f a b d statusWrite s) = .next t →
      (∃ c v, d < s.nstat ∧ t = ((s.setCache c).setFlag d v).addCost 4) ∨ ∃ c e, t = (s.setCache c).raise e := by
    intro f hf
    rcases binOp_statusWrite_inversion hf with ⟨c, v, -, -, hd, ht⟩ | ⟨c, e, -, ht⟩
    · exact .inl ⟨c, v, by simpa [State.outside] using hd, ht⟩
    · exact .inr ⟨c, e, ht⟩
  rcases h with h | h
  · exact hends valuesEqual h
  · exact hends valuesDiffer h

/-- ADD, SUB and MULT write their destination, or latch an error; besides that only the cache changes. -/
theorem exec_arithmetic_cases
    (h : exec (.add a b d) s = .next t ∨ exec (.sub a b d) s = .next t ∨ exec (.mult a b d) s = .next t) :
    (∃ c v, d < s.nreg ∧ t = ((s.setCache c).setReg d v).addCost 4) ∨ ∃ c e, t = (s.setCache c).raise e := by
  have hends : ∀ f, retire 4 (binOp f a b d regWrite s) = .next t →
      (∃ c v, d < s.nreg ∧ t = ((s.setCache c).setReg d v).addCost 4) ∨ ∃ c e, t = (s.setCache c).raise e := by
    intro f hf
    rcases binOp_regWrite_inversion hf with ⟨c, v, -, -, hd, ht⟩ | ⟨c, e, -, ht⟩
    · exact .inl ⟨c, v, by simpa [State.outside] using hd, ht⟩
    · exact .inr ⟨c, e, ht⟩
  rcases h with h | h | h
  · exact hends (· + ·) h
  · exact hends (· - ·) h
  · exact hends (· * ·) h

/-- STORE writes its cell after a fetch, or only latches the error. -/
theorem exec_store_cases (h : exec (.store r addr) s = .next t) :
    (∃ v c, t = (memWrite addr v (s.setCache c)).addCost 2) ∨ t = s.raise (dataIndexError r) := by
  rcases Nat.lt_or_ge r s.nreg with hr | hr
  · obtain ⟨v, c, -, hs⟩ := execStore_of_lt (addr := addr) hr
    rw [exec, hs] at h
    cases h
    exact .inl ⟨v, c, rfl⟩
  · rw [exec, execStore_of_le hr] at h
    cases h
    exact .inr rfl

/-! ### Frames -/

/-- Equal Memories look up and read alike. -/
theorem memory_reads_of_eq (h : t.mem = s.mem) (addr : Addr) :
    FiniteMap.find t.mem addr = FiniteMap.find s.mem addr ∧ memRead addr t = memRead addr s :=
  ⟨by rw [h], by rw [memRead, memRead, h]⟩

/-- A write to one register leaves the cached values of the others. -/
theorem Cache.find_update_other (c : Cache) {d k : Nat} (v : Value) (hk : k ≠ d) :
    Cache.find (Cache.update c d v) k = Cache.find c k := by
  induction c with
  | nil => rfl
  | cons e c ih =>
    obtain ⟨i, w⟩ := e
    have htail : Cache.find (Cache.update ((i, w) :: c) d v) k =
        if k = i then some (if i = d then v else w) else Cache.find (Cache.update c d v) k := by
      by_cases hi : i = d
      · subst hi
        simp [Cache.update, hk]
      · simp [Cache.update, hi]
    rw [htail, ih, Cache.find_cons]
    by_cases hki : k = i
    · subst hki
      simp [hk]
    · simp [hki]

/-- Settles O44: NOP, HALT and the unconditional JMP end by their equations, the conditional JMP in one of two ways. -/
theorem controlFrame : Obligations.ControlFrame := by
  rintro i s t (rfl | rfl | ⟨target, rfl⟩ | ⟨target, j, rfl⟩) h
  · cases h
    simp [cost]
  · cases h
    simp [cost]
  · cases h
    simp
  · rcases exec_jmpc_cases h with ⟨pc, rfl⟩ | rfl
    · simp
    · simp

/-- Settles O45: `exec_compare_cases`, with the status write in one case and the latched error in the other. -/
theorem compareFrame : Obligations.CompareFrame := by
  intro a b d s t h
  rcases exec_compare_cases h with ⟨c, v, hd, rfl⟩ | ⟨c, e, rfl⟩
  · refine ⟨rfl, fun k hk => ?_, by simp, rfl, rfl, rfl, rfl, memory_reads_of_eq rfl, .inl ⟨rfl, rfl⟩⟩
    exact (State.setFlag_flag (s := s.setCache c) hd v k).trans (if_neg hk)
  · exact ⟨rfl, fun _ _ => rfl, rfl, rfl, rfl, rfl, rfl, memory_reads_of_eq rfl,
      .inr ⟨Option.some_ne_none e, rfl, rfl⟩⟩

/-- Settles O46: `exec_arithmetic_cases`, with the register write in one case and the latched error in the other. -/
theorem arithmeticFrame : Obligations.ArithmeticFrame := by
  intro a b d s t h
  rcases exec_arithmetic_cases h with ⟨c, v, hd, rfl⟩ | ⟨c, e, rfl⟩
  · refine ⟨fun k hk => ?_, by simp, rfl, rfl, rfl, rfl, rfl, memory_reads_of_eq rfl, .inl ⟨rfl, rfl⟩⟩
    exact (State.setReg_reg (s := s.setCache c) hd v k).trans (if_neg hk)
  · exact ⟨fun _ _ => rfl, rfl, rfl, rfl, rfl, rfl, rfl, memory_reads_of_eq rfl,
      .inr ⟨Option.some_ne_none e, rfl, rfl⟩⟩

/-- Settles O47: `exec_load_cases`; the register write replaces the cached copy of its register alone, in place. -/
theorem loadFrame : Obligations.LoadFrame := by
  intro addr d s t h
  rcases exec_load_cases h with ⟨hd, rfl⟩ | ⟨-, rfl⟩
  · refine ⟨fun k hk => ?_, by simp, rfl, rfl, rfl, rfl, rfl, memory_reads_of_eq rfl,
      Cache.map_fst_update s.cache d (memRead addr s), fun k => Cache.find_update_other s.cache (memRead addr s),
      .inl ⟨rfl, rfl⟩⟩
    exact (s.setReg_reg hd (memRead addr s) k).trans (if_neg hk)
  · exact ⟨fun _ _ => rfl, rfl, rfl, rfl, rfl, rfl, rfl, memory_reads_of_eq rfl, rfl, fun _ _ => rfl,
      .inr ⟨Option.some_ne_none _, rfl, rfl, rfl⟩⟩

/-- Settles O48: `exec_store_cases`; the memory write binds one cell. -/
theorem storeFrame : Obligations.StoreFrame := by
  intro r addr s t h
  rcases exec_store_cases h with ⟨v, c, rfl⟩ | rfl
  · refine ⟨rfl, rfl, rfl, rfl, rfl, rfl, fun a ha => ⟨?_, ?_⟩, .inl ⟨rfl, rfl⟩⟩
    · exact FiniteMap.find_bind_other s.mem v ha
    · exact memRead_memWrite_other v (s.setCache c) ha
  · exact ⟨rfl, rfl, rfl, rfl, rfl, rfl, fun a _ => memory_reads_of_eq rfl a,
      .inr ⟨Option.some_ne_none _, rfl, rfl, rfl⟩⟩

end Sys2Proof.Machine
end

section
/-! Reset, the loads and the invariant of every reachable state (10_state.md R30, R39, 70_reset_and_hazards.md R230 to
R237). -/

namespace Sys2Proof.Machine

variable {s t : State}

/-! ### Reset and program load -/

/-- Settles O24: a constructed register file is a list of equal entries, and everything else is empty. -/
theorem constructedInstanceHoldsTheResetValues : Obligations.ConstructedInstanceHoldsTheResetValues := by
  refine ⟨fun c => ⟨?_, fun i => ?_, fun j => ?_, fun _ => ⟨rfl, rfl⟩, fun _ => rfl, rfl, rfl, rfl, rfl, rfl⟩, rfl⟩
  · simp [State.config, State.nreg, State.nstat, State.construct]
  · rw [State.reg, State.construct, List.getD_eq_getElem?_getD, List.getElem?_replicate]
    split <;> rfl
  · rw [State.flag, State.construct, List.getD_eq_getElem?_getD, List.getElem?_replicate]
    split <;> rfl

/-- Settles O27: the stored program is the finite map of the list. -/
theorem programStandsFromAddressZero : Obligations.ProgramStandsFromAddressZero :=
  fun _ entries a => ⟨FiniteMap.find_ofList 0 entries a, rfl⟩

/-! ### Initial data -/

/-- An entry in range is applied, and the load goes on. -/
theorem State.loadInitialData_cons_of_lt {i : Nat} (hi : i < s.nreg) (v : Value) (entries : List (Nat × Value)) :
    s.loadInitialData ((i, v) :: entries) = (s.setReg i v).loadInitialData entries := by
  rw [State.loadInitialData, State.loadEntry, if_pos hi]

/-- An entry out of range fails the load. -/
theorem State.loadInitialData_cons_of_le {i : Nat} (hi : s.nreg ≤ i) (v : Value) (entries : List (Nat × Value)) :
    s.loadInitialData ((i, v) :: entries) = .error (.indexOutOfRange i) := by
  rw [State.loadInitialData, State.loadEntry, if_neg (Nat.not_lt.mpr hi)]

/-- With an empty cache a register write changes the register file alone. -/
theorem State.setReg_of_cache_nil (h : s.cache = []) (i : Nat) (v : Value) :
    s.setReg i v = { s with x := (s.setReg i v).x } := by
  have hcache : Cache.update s.cache i v = s.cache := by rw [h]; rfl
  rw [State.setReg, hcache]

/-- Entries in range, applied in order from an empty cache: the last entry for a register wins. -/
theorem State.loadInitialData_of_inRange {entries : List (Nat × Value)} (hcache : s.cache = [])
    (hin : ∀ e ∈ entries, e.1 < s.nreg) :
    ∃ t, s.loadInitialData entries = .ok t ∧ t = { s with x := t.x } ∧ t.nreg = s.nreg ∧
      ∀ k, t.reg k = (entries.reverse.lookup k).getD (s.reg k) := by
  induction entries generalizing s with
  | nil => exact ⟨s, rfl, rfl, rfl, fun _ => rfl⟩
  | cons e entries ih =>
    obtain ⟨i, v⟩ := e
    obtain ⟨hi, hin⟩ := List.forall_mem_cons.mp hin
    have hset := State.setReg_of_cache_nil hcache i v
    obtain ⟨t, hload, ht, hnreg, hreg⟩ := ih (s := s.setReg i v) (by simp [hcache, Cache.update])
      (fun e he => (s.setReg_nreg i v).symm ▸ hin e he)
    refine ⟨t, (State.loadInitialData_cons_of_lt hi v entries).trans hload, ?_,
      hnreg.trans (s.setReg_nreg i v), fun k => ?_⟩
    · rw [ht, hset]
    · rw [hreg, List.reverse_cons, List.lookup_append, State.setReg_reg s hi, List.lookup_cons, List.lookup_nil]
      cases entries.reverse.lookup k with
      | some w => rfl
      | none =>
        by_cases hk : k = i
        · simp [hk]
        · simp [hk, beq_eq_false_iff_ne.mpr hk]

/-- Entries in range before one out of range do not save the load. -/
theorem State.loadInitialData_of_first_bad {before after : List (Nat × Value)} {bad : Nat × Value}
    (hin : ∀ e ∈ before, e.1 < s.nreg) (hbad : s.nreg ≤ bad.1) :
    s.loadInitialData (before ++ bad :: after) = .error (.indexOutOfRange bad.1) := by
  induction before generalizing s with
  | nil => exact State.loadInitialData_cons_of_le hbad bad.2 after
  | cons e before ih =>
    obtain ⟨hi, hin⟩ := List.forall_mem_cons.mp hin
    have hnreg := s.setReg_nreg e.1 e.2
    rw [List.cons_append]
    refine (State.loadInitialData_cons_of_lt hi e.2 _).trans (ih (fun e' he' => ?_) ?_)
    · rw [hnreg]; exact hin e' he'
    · rw [hnreg]; exact hbad

/-- Settles O25: two inductions on the entries, one over entries in range and one up to the first bad entry. -/
theorem initialDataSetsRegistersInOrder : Obligations.InitialDataSetsRegistersInOrder :=
  fun _ => ⟨fun _ => State.loadInitialData_of_inRange, fun _ _ _ => State.loadInitialData_of_first_bad⟩

/-! ### Initial-data lines -/

section Lines
variable {text : Line} {rest : List Line}

/-- A line that does not parse fails the load with its reason. -/
theorem State.loadInitialLines_of_parse_error {e : RangeError} (h : parseInitialLine text = .error e) (s : State) :
    s.loadInitialLines (text :: rest) = .error e := by
  simp only [State.loadInitialLines, h]

/-- A line that parses with its index out of range fails the load. -/
theorem State.loadInitialLines_of_le {i : Nat} {v : Value} (h : parseInitialLine text = .ok (i, v))
    (hi : s.nreg ≤ i) : s.loadInitialLines (text :: rest) = .error (.indexOutOfRange i) := by
  simp only [State.loadInitialLines, h, State.loadEntry, if_neg (Nat.not_lt.mpr hi)]

/-- A line that parses with its index in range is applied, and the load goes on. -/
theorem State.loadInitialLines_of_lt {i : Nat} {v : Value} (h : parseInitialLine text = .ok (i, v))
    (hi : i < s.nreg) : s.loadInitialLines (text :: rest) = (s.setReg i v).loadInitialLines rest := by
  simp only [State.loadInitialLines, h, State.loadEntry, if_pos hi]

/-- A line without exactly two tokens. -/
theorem parseInitialLine_of_length_ne (h : (tokensOf text).length ≠ 2) :
    parseInitialLine text = .error .notTwoTokens := by
  unfold parseInitialLine
  split
  · rename_i htokens
    rw [htokens] at h
    exact absurd rfl h
  · rfl

/-- The line that spells an index and a value parses to them. -/
theorem parseInitialLine_spelled (i : Nat) (v : Value) :
    parseInitialLine (decimal i ++ ' ' :: signedDecimal v) = .ok (i, v) := by
  have htokens : tokensOf (decimal i ++ ' ' :: signedDecimal v) = [decimal i, signedDecimal v] := by
    have hjoin := tokensOf_join (isToken_decimal i).1 (isToken_decimal i).2 (ws := [signedDecimal v])
      fun w hw => List.mem_singleton.mp hw ▸ isToken_signedDecimal v
    simpa using hjoin
  simp only [parseInitialLine, htokens, bareInteger_decimal, signedInteger_signedDecimal]

end Lines

/-- Settles O26: the line's checks are those of `parseInitialLine`, then the range check; a line that passes is a
register write. -/
theorem initialDataLineIsCheckedAndApplied : Obligations.InitialDataLineIsCheckedAndApplied := by
  intro s text rest
  refine ⟨fun hlen => s.loadInitialLines_of_parse_error (parseInitialLine_of_length_ne hlen),
    fun index value htokens => ⟨fun hindex => ?_, fun i hindex => ⟨fun hvalue => ?_, fun v hvalue => ?_⟩⟩, ?_⟩
  · exact s.loadInitialLines_of_parse_error (by simp only [parseInitialLine, htokens, hindex])
  · exact s.loadInitialLines_of_parse_error (by simp only [parseInitialLine, htokens, hindex, hvalue])
  · have hparse : parseInitialLine text = .ok (i, v) := by simp only [parseInitialLine, htokens, hindex, hvalue]
    exact ⟨State.loadInitialLines_of_le hparse, fun hi => ⟨s.setReg i v, State.loadInitialLines_of_lt hparse hi,
      s.setReg_nreg i v, s.setReg_reg hi v, fun hcache => State.setReg_of_cache_nil hcache i v⟩⟩
  · rintro i v rfl hi
    exact ⟨s.setReg i v, State.loadInitialLines_of_lt (parseInitialLine_spelled i v) hi, s.setReg_nreg i v,
      s.setReg_reg hi v⟩

/-! ### The invariant of the reachable states -/

/-- A constructed machine has the invariant: everything that could break it is empty. -/
theorem State.inv_construct (c : Config) : (State.construct c).Inv :=
  ⟨Cache.Coherent.nil, List.Pairwise.nil, List.Pairwise.nil⟩

/-- Initial data keeps the invariant: it is a list of register writes. -/
theorem State.Inv.loadInitialData {entries : List (Nat × Value)} (h : s.Inv)
    (hload : s.loadInitialData entries = .ok t) : t.Inv := by
  induction entries generalizing s with
  | nil => cases hload; exact h
  | cons e entries ih =>
    obtain ⟨i, v⟩ := e
    rcases Nat.lt_or_ge i s.nreg with hi | hi
    · rw [State.loadInitialData_cons_of_lt hi] at hload
      exact ih (h.setReg hi v) hload
    · rw [State.loadInitialData_cons_of_le hi] at hload
      cases hload

/-- A program load keeps the invariant: the stored program is in canonical form. -/
theorem State.Inv.loadProgram (h : s.Inv) (entries : List Entry) : (s.loadProgram entries).Inv :=
  ⟨h.cache, h.mem, FiniteMap.wf_ofList 0 entries⟩

/-- Settles O28: reset is the construction of the reference configuration. -/
theorem resetHasTheInvariant : Obligations.ResetHasTheInvariant := State.inv_construct Config.reference

/-- Settles O29: construction has the invariant, and both loads keep it. -/
theorem loadedMachineHasTheInvariant : Obligations.LoadedMachineHasTheInvariant :=
  fun c _ entries _ hload => ((State.inv_construct c).loadInitialData hload).loadProgram entries

/-- Every reachable state has the invariant. -/
theorem Reachable.inv (h : Reachable s) : s.Inv := by
  induction h with
  | loaded c initial entries s hload => exact loadedMachineHasTheInvariant c initial entries s hload
  | stepped s t _ hstep ih => exact everyStepKeepsTheInvariant s t ih hstep

/-- Settles O31: the cache of a reachable state is coherent. -/
theorem fetchReturnsTheRegisterInEveryReachableState : Obligations.FetchReturnsTheRegisterInEveryReachableState :=
  fun _ _ hs hi => ⟨_, regFetch_lru hs.inv.cache hi, rfl⟩

/-! ### The transactions -/

section Transactions
variable {i : Instance}

/-- A transaction on a machine that has had a failed load is refused. -/
theorem Instance.refused_of_discarded (h : i.discarded = true) :
    (∀ lines, i.loadInitialLines lines = .refused .afterLoadError) ∧
      (∀ m mark f lines, i.loadLines m mark f lines = .refused .afterLoadError) ∧
      (∀ entries, i.loadEntries entries = .refused .afterLoadError) ∧
      (∀ n, i.run n = .refused .afterLoadError) :=
  ⟨fun _ => if_pos h, fun _ _ _ _ => if_pos h, fun _ => if_pos h, fun _ => if_pos h⟩

/-- After its run every transaction on a machine without a failed load is refused. -/
theorem Instance.refused_of_hasRun (hd : i.discarded = false) (h : i.hasRun = true) :
    (∀ lines, i.loadInitialLines lines = .refused .loadAfterRun) ∧
      (∀ m mark f lines, i.loadLines m mark f lines = .refused .loadAfterRun) ∧
      (∀ entries, i.loadEntries entries = .refused .loadAfterRun) ∧
      (∀ n, i.run n = .refused .secondRun) := by
  simp [Instance.loadInitialLines, Instance.loadLines, Instance.loadEntries, Instance.run, hd, h]

/-- After its program load a machine that has not run refuses another one. -/
theorem Instance.refused_of_programLoaded (hd : i.discarded = false) (hr : i.hasRun = false)
    (h : i.programLoaded = true) :
    (∀ m mark f lines, i.loadLines m mark f lines = .refused .secondProgram) ∧
      (∀ entries, i.loadEntries entries = .refused .secondProgram) := by
  simp [Instance.loadLines, Instance.loadEntries, hd, hr, h]

/-- A run that is performed leaves a machine that has run and has had no failed load. -/
theorem Instance.run_performed {fuel : Nat} {r : Option (Except OperationError Snapshot) × RunResult × Instance}
    (h : i.run fuel = .performed r) : r.2.2.discarded = false ∧ r.2.2.hasRun = true := by
  unfold Instance.run at h
  split_ifs at h with hd
  split at h <;> cases h <;> exact ⟨Bool.eq_false_of_not_eq_true hd, rfl⟩

section ProgramLoad
variable {i' : Instance} {m : OpMap} {mark : Char} {f : Format} {lines : List Line}

/-- A program load by lines that is performed found no failed load and no run, and is recorded. -/
theorem Instance.loadLines_performed (h : i.loadLines m mark f lines = .performed i') :
    i'.discarded = false ∧ i'.hasRun = false ∧ i'.programLoaded = true := by
  unfold Instance.loadLines at h
  split_ifs at h with hd hr
  split at h <;> cases h
  exact ⟨Bool.eq_false_of_not_eq_true hd, Bool.eq_false_of_not_eq_true hr, rfl⟩

/-- A program load by entries that is performed found no failed load and no run, and is recorded. -/
theorem Instance.loadEntries_performed {entries : List Entry} (h : i.loadEntries entries = .performed i') :
    i'.discarded = false ∧ i'.hasRun = false ∧ i'.programLoaded = true := by
  unfold Instance.loadEntries at h
  split_ifs at h with hd hr
  cases h
  exact ⟨Bool.eq_false_of_not_eq_true hd, Bool.eq_false_of_not_eq_true hr, rfl⟩

/-- A failed program load marks the machine as discarded and changes nothing else. -/
theorem Instance.loadLines_failed {e : ValidationError} (h : i.loadLines m mark f lines = .failed e i') :
    i' = i.discard := by
  unfold Instance.loadLines at h
  split_ifs at h
  split at h <;> cases h
  rfl

/-- A failed initial-data load marks the machine as discarded and changes nothing else. -/
theorem Instance.loadInitialLines_failed {e : RangeError} (h : i.loadInitialLines lines = .failed e i') :
    i' = i.discard := by
  unfold Instance.loadInitialLines at h
  split_ifs at h
  split at h <;> cases h
  rfl

end ProgramLoad

end Transactions

/-- Settles O50: each transaction leaves the flags from which the refusals follow. -/
theorem oneLoadAndOneRunPerInstance : Obligations.OneLoadAndOneRunPerInstance := by
  refine ⟨fun i fuel r h => ?_, fun i i' m mark f lines h => ?_, fun i i' entries h => ?_,
    fun i i' m mark f lines e h => ?_, fun i i' lines e h => ?_⟩
  · obtain ⟨hd, hr⟩ := Instance.run_performed h
    exact Instance.refused_of_hasRun hd hr
  · obtain ⟨hd, hr, hp⟩ := Instance.loadLines_performed h
    exact Instance.refused_of_programLoaded hd hr hp
  · obtain ⟨hd, hr, hp⟩ := Instance.loadEntries_performed h
    exact Instance.refused_of_programLoaded hd hr hp
  · obtain rfl := Instance.loadLines_failed h
    exact ⟨rfl, Instance.refused_of_discarded rfl⟩
  · obtain rfl := Instance.loadInitialLines_failed h
    exact Instance.refused_of_discarded rfl

end Sys2Proof.Machine
end
